-- ==== Sys2Proof/Word.lean ====
section
/-! DEFINITION. The word types of the CHIP-8 core (spec/00_scope.md R9, R11, R12): what the spec treats as bits.
Every value is unsigned and nothing is ever sign-extended (R12). -/

namespace Sys2Proof

/-- An 8-bit value: a general register, a timer, a byte of memory (R9). -/
abbrev Byte := BitVec 8

/-- A 16-bit value: `pc`, `I`, a stack entry, an opcode (R9). -/
abbrev Word := BitVec 16

/-- A 4-bit field: a register number `x` or `y`, or the count `n` (30_encoding R91). -/
abbrev Nibble := BitVec 4

/-- A 12-bit field: the address `nnn` (30_encoding R91). -/
abbrev Addr := BitVec 12

end Sys2Proof
end

