-- ==== Sys2Proof/Syntax.lean ====
section
/-! DEFINITION. The 34 instructions of spec/opcode_table.json, one constructor a row, in the table's order
(30_encoding R104). An operand has exactly its field's width (R91), so a constructor holds no value its encoding
could not. -/

namespace Sys2Proof

/-- One CHIP-8 instruction. The docstrings give the opcode pattern and the rule of its meaning. -/
inductive Instr where
  /-- 00E0, clear the display (R301). -/
  | cls
  /-- 00EE, return (R151). -/
  | ret
  /-- 1nnn, jump (R152). -/
  | jp (nnn : Addr)
  /-- 2nnn, call (R153). -/
  | call (nnn : Addr)
  /-- 3xkk, skip if equal to immediate (R154). -/
  | seByte (x : Nibble) (kk : Byte)
  /-- 4xkk, skip if not equal to immediate (R155). -/
  | sneByte (x : Nibble) (kk : Byte)
  /-- 5xy0, skip if registers equal (R156). -/
  | seReg (x y : Nibble)
  /-- 6xkk, load immediate (R201). -/
  | ldByte (x : Nibble) (kk : Byte)
  /-- 7xkk, add immediate (R202). -/
  | addByte (x : Nibble) (kk : Byte)
  /-- 8xy0, copy register (R203). -/
  | ldReg (x y : Nibble)
  /-- 8xy1, bitwise OR (R204). -/
  | orReg (x y : Nibble)
  /-- 8xy2, bitwise AND (R205). -/
  | andReg (x y : Nibble)
  /-- 8xy3, bitwise XOR (R206). -/
  | xorReg (x y : Nibble)
  /-- 8xy4, add registers with carry (R207). -/
  | addReg (x y : Nibble)
  /-- 8xy5, subtract registers (R208). -/
  | subReg (x y : Nibble)
  /-- 8xy6, shift right (R209); `y` is decoded but ignored (R101). -/
  | shr (x y : Nibble)
  /-- 8xy7, reverse subtract (R210). -/
  | subnReg (x y : Nibble)
  /-- 8xyE, shift left (R211); `y` is decoded but ignored (R101). -/
  | shl (x y : Nibble)
  /-- 9xy0, skip if registers not equal (R157). -/
  | sneReg (x y : Nibble)
  /-- Annn, load index (R251). -/
  | ldI (nnn : Addr)
  /-- Bnnn, jump with offset V0 (R158). -/
  | jpV0 (nnn : Addr)
  /-- Cxkk, random byte masked (R213). -/
  | rnd (x : Nibble) (kk : Byte)
  /-- Dxyn, draw sprite (R302). -/
  | drw (x y n : Nibble)
  /-- Ex9E, skip if key pressed (R331). -/
  | skp (x : Nibble)
  /-- ExA1, skip if key not pressed (R332). -/
  | sknp (x : Nibble)
  /-- Fx07, read delay timer (R333). -/
  | ldVxDt (x : Nibble)
  /-- Fx0A, wait for a key (R340 to R343). -/
  | ldVxK (x : Nibble)
  /-- Fx15, set delay timer (R350). -/
  | ldDtVx (x : Nibble)
  /-- Fx18, set sound timer (R351). -/
  | ldStVx (x : Nibble)
  /-- Fx1E, add to index (R252). -/
  | addI (x : Nibble)
  /-- Fx29, point index at a font glyph (R253). -/
  | ldF (x : Nibble)
  /-- Fx33, store BCD (R254). -/
  | ldB (x : Nibble)
  /-- Fx55, store registers (R255). -/
  | stRegs (x : Nibble)
  /-- Fx65, load registers (R256). -/
  | ldRegs (x : Nibble)
  deriving DecidableEq, Repr

end Sys2Proof
end

