-- ==== Sys2Proof/WellFormed.lean ====
section
/-! DEFINITION. The opcode map of 30_encoding R104 as a table of rows (pattern, match, mask), and what it makes of a
16-bit word (`Opcode.legal`, R102) and of an instruction (`Instr.WellFormed`).

An instruction's operands are bit vectors of exactly their fields' widths (R91), so no `Instr` term is ill formed:
`Instr.WellFormed` holds of every one (`Laws/PerInstr.lean`). What CAN be ill formed is a word; the smoke tests of
`Tests/Slice0.lean` show one illegal word for each of R95 to R99. -/

namespace Sys2Proof

/-- One row of the opcode map: an opcode `op` selects the row when `op &&& mask = bits` (R104). -/
structure OpcodeRow where
  /-- The pattern, as the table writes it. -/
  pattern : String
  /-- The table's `match`. -/
  bits : Word
  /-- The table's `mask`. -/
  mask : Word
  deriving DecidableEq, Repr

/-- Does `op` select the row? (R104) -/
def OpcodeRow.selects (r : OpcodeRow) (op : Word) : Bool := (op &&& r.mask) == r.bits

/-- The row of the opcode map that an instruction's constructor stands for (R104). -/
def Instr.row : Instr → OpcodeRow
  | .cls => ⟨"00E0", 0x00E0, 0xFFFF⟩
  | .ret => ⟨"00EE", 0x00EE, 0xFFFF⟩
  | .jp _ => ⟨"1nnn", 0x1000, 0xF000⟩
  | .call _ => ⟨"2nnn", 0x2000, 0xF000⟩
  | .seByte _ _ => ⟨"3xkk", 0x3000, 0xF000⟩
  | .sneByte _ _ => ⟨"4xkk", 0x4000, 0xF000⟩
  | .seReg _ _ => ⟨"5xy0", 0x5000, 0xF00F⟩
  | .ldByte _ _ => ⟨"6xkk", 0x6000, 0xF000⟩
  | .addByte _ _ => ⟨"7xkk", 0x7000, 0xF000⟩
  | .ldReg _ _ => ⟨"8xy0", 0x8000, 0xF00F⟩
  | .orReg _ _ => ⟨"8xy1", 0x8001, 0xF00F⟩
  | .andReg _ _ => ⟨"8xy2", 0x8002, 0xF00F⟩
  | .xorReg _ _ => ⟨"8xy3", 0x8003, 0xF00F⟩
  | .addReg _ _ => ⟨"8xy4", 0x8004, 0xF00F⟩
  | .subReg _ _ => ⟨"8xy5", 0x8005, 0xF00F⟩
  | .shr _ _ => ⟨"8xy6", 0x8006, 0xF00F⟩
  | .subnReg _ _ => ⟨"8xy7", 0x8007, 0xF00F⟩
  | .shl _ _ => ⟨"8xyE", 0x800E, 0xF00F⟩
  | .sneReg _ _ => ⟨"9xy0", 0x9000, 0xF00F⟩
  | .ldI _ => ⟨"Annn", 0xA000, 0xF000⟩
  | .jpV0 _ => ⟨"Bnnn", 0xB000, 0xF000⟩
  | .rnd _ _ => ⟨"Cxkk", 0xC000, 0xF000⟩
  | .drw _ _ _ => ⟨"Dxyn", 0xD000, 0xF000⟩
  | .skp _ => ⟨"Ex9E", 0xE09E, 0xF0FF⟩
  | .sknp _ => ⟨"ExA1", 0xE0A1, 0xF0FF⟩
  | .ldVxDt _ => ⟨"Fx07", 0xF007, 0xF0FF⟩
  | .ldVxK _ => ⟨"Fx0A", 0xF00A, 0xF0FF⟩
  | .ldDtVx _ => ⟨"Fx15", 0xF015, 0xF0FF⟩
  | .ldStVx _ => ⟨"Fx18", 0xF018, 0xF0FF⟩
  | .addI _ => ⟨"Fx1E", 0xF01E, 0xF0FF⟩
  | .ldF _ => ⟨"Fx29", 0xF029, 0xF0FF⟩
  | .ldB _ => ⟨"Fx33", 0xF033, 0xF0FF⟩
  | .stRegs _ => ⟨"Fx55", 0xF055, 0xF0FF⟩
  | .ldRegs _ => ⟨"Fx65", 0xF065, 0xF0FF⟩

/-- The opcode map, one row per instruction, in the source's order (R104). -/
def opcodeMap : List OpcodeRow :=
  [⟨"00E0", 0x00E0, 0xFFFF⟩, ⟨"00EE", 0x00EE, 0xFFFF⟩, ⟨"1nnn", 0x1000, 0xF000⟩] ++
  [⟨"2nnn", 0x2000, 0xF000⟩, ⟨"3xkk", 0x3000, 0xF000⟩, ⟨"4xkk", 0x4000, 0xF000⟩] ++
  [⟨"5xy0", 0x5000, 0xF00F⟩, ⟨"6xkk", 0x6000, 0xF000⟩, ⟨"7xkk", 0x7000, 0xF000⟩] ++
  [⟨"8xy0", 0x8000, 0xF00F⟩, ⟨"8xy1", 0x8001, 0xF00F⟩, ⟨"8xy2", 0x8002, 0xF00F⟩] ++
  [⟨"8xy3", 0x8003, 0xF00F⟩, ⟨"8xy4", 0x8004, 0xF00F⟩, ⟨"8xy5", 0x8005, 0xF00F⟩] ++
  [⟨"8xy6", 0x8006, 0xF00F⟩, ⟨"8xy7", 0x8007, 0xF00F⟩, ⟨"8xyE", 0x800E, 0xF00F⟩] ++
  [⟨"9xy0", 0x9000, 0xF00F⟩, ⟨"Annn", 0xA000, 0xF000⟩, ⟨"Bnnn", 0xB000, 0xF000⟩] ++
  [⟨"Cxkk", 0xC000, 0xF000⟩, ⟨"Dxyn", 0xD000, 0xF000⟩, ⟨"Ex9E", 0xE09E, 0xF0FF⟩] ++
  [⟨"ExA1", 0xE0A1, 0xF0FF⟩, ⟨"Fx07", 0xF007, 0xF0FF⟩, ⟨"Fx0A", 0xF00A, 0xF0FF⟩] ++
  [⟨"Fx15", 0xF015, 0xF0FF⟩, ⟨"Fx18", 0xF018, 0xF0FF⟩, ⟨"Fx1E", 0xF01E, 0xF0FF⟩] ++
  [⟨"Fx29", 0xF029, 0xF0FF⟩, ⟨"Fx33", 0xF033, 0xF0FF⟩, ⟨"Fx55", 0xF055, 0xF0FF⟩] ++
  [⟨"Fx65", 0xF065, 0xF0FF⟩]

/-- A word is legal when some row of the opcode map matches it (R102). -/
def Opcode.legal (op : Word) : Bool := opcodeMap.any (fun r => r.selects op)

/-- An instruction is well formed when its row stands in the opcode map; with exact operand widths nothing else can be
wrong with it (R91, R92). -/
def Instr.WellFormed (i : Instr) : Bool := opcodeMap.contains i.row

end Sys2Proof
end

