-- ==== Sys2Proof/Decode.lean ====
section
/-! DEFINITION. Decoding and encoding (spec/30_encoding.md). Decoding is the two-level tree of R94: the high nibble
picks a group, and groups 0, 5, 8, 9, E and F look further; what no group lists is rejected by name, as the unknown
opcode it is (R102). Decode reads only the opcode (40_step_cycle R123). The encoder writes the six formats of R92. -/

namespace Sys2Proof

/-- What decoding answers. -/
inductive Decoded where
  /-- The opcode selects this instruction. -/
  | instr (i : Instr)
  /-- No row of the opcode map selects `op` (R102); the step raises `UnknownOpcode(op)` (R123). -/
  | unknownOpcode (op : Word)
  /-- Fewer than two bytes were given; a fetch never gives so few (R90, R121). -/
  | truncated
  deriving DecidableEq, Repr

/-- The group `g` = op[15:12] (R91). -/
def opGroup (op : Word) : Nibble := op.extractLsb' 12 4
/-- The field `x` = op[11:8] (R91). -/
def opX (op : Word) : Nibble := op.extractLsb' 8 4
/-- The field `y` = op[7:4] (R91). -/
def opY (op : Word) : Nibble := op.extractLsb' 4 4
/-- The field `n` = op[3:0] (R91). -/
def opN (op : Word) : Nibble := op.extractLsb' 0 4
/-- The field `kk` = op[7:0] (R91). -/
def opKK (op : Word) : Byte := op.extractLsb' 0 8
/-- The field `nnn` = op[11:0] (R91). -/
def opNNN (op : Word) : Addr := op.extractLsb' 0 12

/-- Group 0 matches all 16 bits (R95; 90_conflicts C3, C4). -/
def decodeGroup0 (op : Word) : Decoded :=
  match op with
  | 0x00E0#16 => .instr .cls
  | 0x00EE#16 => .instr .ret
  | _ => .unknownOpcode op

/-- Group 5 needs n = 0 (R96). -/
def decodeGroup5 (op : Word) : Decoded :=
  match opN op with
  | 0x0#4 => .instr (.seReg (opX op) (opY op))
  | _ => .unknownOpcode op

/-- Group 8 dispatches on the low nibble (R97). -/
def decodeGroup8 (op : Word) : Decoded :=
  match opN op with
  | 0x0#4 => .instr (.ldReg (opX op) (opY op))
  | 0x1#4 => .instr (.orReg (opX op) (opY op))
  | 0x2#4 => .instr (.andReg (opX op) (opY op))
  | 0x3#4 => .instr (.xorReg (opX op) (opY op))
  | 0x4#4 => .instr (.addReg (opX op) (opY op))
  | 0x5#4 => .instr (.subReg (opX op) (opY op))
  | 0x6#4 => .instr (.shr (opX op) (opY op))
  | 0x7#4 => .instr (.subnReg (opX op) (opY op))
  | 0xE#4 => .instr (.shl (opX op) (opY op))
  | _ => .unknownOpcode op

/-- Group 9 needs n = 0 (R96). -/
def decodeGroup9 (op : Word) : Decoded :=
  match opN op with
  | 0x0#4 => .instr (.sneReg (opX op) (opY op))
  | _ => .unknownOpcode op

/-- Group E dispatches on the low byte (R98). -/
def decodeGroupE (op : Word) : Decoded :=
  match opKK op with
  | 0x9E#8 => .instr (.skp (opX op))
  | 0xA1#8 => .instr (.sknp (opX op))
  | _ => .unknownOpcode op

/-- Group F dispatches on the low byte (R99). -/
def decodeGroupF (op : Word) : Decoded :=
  match opKK op with
  | 0x07#8 => .instr (.ldVxDt (opX op))
  | 0x0A#8 => .instr (.ldVxK (opX op))
  | 0x15#8 => .instr (.ldDtVx (opX op))
  | 0x18#8 => .instr (.ldStVx (opX op))
  | 0x1E#8 => .instr (.addI (opX op))
  | 0x29#8 => .instr (.ldF (opX op))
  | 0x33#8 => .instr (.ldB (opX op))
  | 0x55#8 => .instr (.stRegs (opX op))
  | 0x65#8 => .instr (.ldRegs (opX op))
  | _ => .unknownOpcode op

/-- Decode one opcode: the high nibble selects the group (R94); groups 1, 2, 3, 4, 6, 7, A, B, C and D are decoded by
it alone (R100). -/
def decode (op : Word) : Decoded :=
  match opGroup op with
  | 0x0#4 => decodeGroup0 op
  | 0x1#4 => .instr (.jp (opNNN op))
  | 0x2#4 => .instr (.call (opNNN op))
  | 0x3#4 => .instr (.seByte (opX op) (opKK op))
  | 0x4#4 => .instr (.sneByte (opX op) (opKK op))
  | 0x5#4 => decodeGroup5 op
  | 0x6#4 => .instr (.ldByte (opX op) (opKK op))
  | 0x7#4 => .instr (.addByte (opX op) (opKK op))
  | 0x8#4 => decodeGroup8 op
  | 0x9#4 => decodeGroup9 op
  | 0xA#4 => .instr (.ldI (opNNN op))
  | 0xB#4 => .instr (.jpV0 (opNNN op))
  | 0xC#4 => .instr (.rnd (opX op) (opKK op))
  | 0xD#4 => .instr (.drw (opX op) (opY op) (opN op))
  | 0xE#4 => decodeGroupE op
  | 0xF#4 => decodeGroupF op
  | _ => .unknownOpcode op

/-- The opcode of two bytes, the byte at the lower address in bits 15..8 (R65, R90). -/
def opcodeOf (hi lo : Byte) : Word := hi ++ lo

/-- Decode the bytes a fetch delivers, lowest address first; bytes after the second belong to no opcode (R90). -/
def decodeBytes : List Byte → Decoded
  | hi :: lo :: _ => decode (opcodeOf hi lo)
  | _ => .truncated

/-- Format NNN (R92): group and a 12-bit address. -/
def formatNNN (g : Nibble) (nnn : Addr) : Word := g ++ nnn

/-- Format XKK (R92): group, register, 8-bit immediate. Format XF is the same word with a fixed low byte. -/
def formatXKK (g x : Nibble) (kk : Byte) : Word := g ++ x ++ kk

/-- Format XYN (R92): group, two registers, low nibble. Format XYF is the same word with a fixed low nibble. -/
def formatXYN (g x y n : Nibble) : Word := g ++ x ++ y ++ n

/-- The opcode of an instruction, from the encodings of R92 and R104. -/
def encode : Instr → Word
  | .cls => 0x00E0
  | .ret => 0x00EE
  | .jp nnn => formatNNN 0x1 nnn
  | .call nnn => formatNNN 0x2 nnn
  | .seByte x kk => formatXKK 0x3 x kk
  | .sneByte x kk => formatXKK 0x4 x kk
  | .seReg x y => formatXYN 0x5 x y 0x0
  | .ldByte x kk => formatXKK 0x6 x kk
  | .addByte x kk => formatXKK 0x7 x kk
  | .ldReg x y => formatXYN 0x8 x y 0x0
  | .orReg x y => formatXYN 0x8 x y 0x1
  | .andReg x y => formatXYN 0x8 x y 0x2
  | .xorReg x y => formatXYN 0x8 x y 0x3
  | .addReg x y => formatXYN 0x8 x y 0x4
  | .subReg x y => formatXYN 0x8 x y 0x5
  | .shr x y => formatXYN 0x8 x y 0x6
  | .subnReg x y => formatXYN 0x8 x y 0x7
  | .shl x y => formatXYN 0x8 x y 0xE
  | .sneReg x y => formatXYN 0x9 x y 0x0
  | .ldI nnn => formatNNN 0xA nnn
  | .jpV0 nnn => formatNNN 0xB nnn
  | .rnd x kk => formatXKK 0xC x kk
  | .drw x y n => formatXYN 0xD x y n
  | .skp x => formatXKK 0xE x 0x9E
  | .sknp x => formatXKK 0xE x 0xA1
  | .ldVxDt x => formatXKK 0xF x 0x07
  | .ldVxK x => formatXKK 0xF x 0x0A
  | .ldDtVx x => formatXKK 0xF x 0x15
  | .ldStVx x => formatXKK 0xF x 0x18
  | .addI x => formatXKK 0xF x 0x1E
  | .ldF x => formatXKK 0xF x 0x29
  | .ldB x => formatXKK 0xF x 0x33
  | .stRegs x => formatXKK 0xF x 0x55
  | .ldRegs x => formatXKK 0xF x 0x65

/-- The two bytes of an opcode as memory holds them, lowest address first (R65). -/
def opcodeBytes (op : Word) : List Byte := [op.extractLsb' 8 8, op.extractLsb' 0 8]

/-- The opcode whose bits, numbered as spec/opcode_table.json numbers them, are `w`. -/
def tableOpcode (nbits w : Nat) : Word := BitVec.ofNat 16 (w % 2 ^ nbits)

/-- What the decoder reads from the instruction whose table bits are `w`: its bytes are laid out as memory holds them
and given to `decodeBytes`. -/
def decodeTableWord (nbits w : Nat) : Option Instr :=
  match decodeBytes (opcodeBytes (tableOpcode nbits w)) with
  | .instr i => some i
  | .unknownOpcode _ => none
  | .truncated => none

end Sys2Proof
end

