-- ==== Sys2Proof/Config.lean ====
section
/-! DEFINITION. What the source leaves to the implementation (spec/00_scope.md R10): the parameters FONT and VF_ORDER,
which a state carries as plain data so that a claim about every state is a claim about every value of them, and the
free bytes of the `rnd` input. -/

namespace Sys2Proof

/-- VF_ORDER (R10; 92_eei_decisions D9): which write of 8xy6 and 8xyE comes last. It matters only when x = 0xF
(42_register_alu R212). -/
inductive VfOrder where
  /-- The source's statements in the listed order, each reading the state the one before left: the default. -/
  | seqListed
  /-- The flag is written last. -/
  | flagLast
  deriving DecidableEq, Repr

/-- The named parameters the spec says a model takes as arguments (R10). -/
structure Params where
  /-- VF_ORDER. -/
  vfOrder : VfOrder
  /-- FONT: the 80 bytes of 0x000..0x04F, glyph d at 5·d .. 5·d+4 (10_state R31). -/
  font : Vector Byte 80
  deriving DecidableEq, Repr

/-- Glyphs 0 to 3 of the default font (10_state R31). -/
def Config.glyphs0to3 : Vector Byte 20 :=
  #v[0xF0, 0x90, 0x90, 0x90, 0xF0,  0x20, 0x60, 0x20, 0x20, 0x70,
     0xF0, 0x10, 0xF0, 0x80, 0xF0,  0xF0, 0x10, 0xF0, 0x10, 0xF0]

/-- Glyphs 4 to 7 of the default font (10_state R31). -/
def Config.glyphs4to7 : Vector Byte 20 :=
  #v[0x90, 0x90, 0xF0, 0x10, 0x10,  0xF0, 0x80, 0xF0, 0x10, 0xF0,
     0xF0, 0x80, 0xF0, 0x90, 0xF0,  0xF0, 0x10, 0x20, 0x40, 0x40]

/-- Glyphs 8 to B of the default font (10_state R31). -/
def Config.glyphs8toB : Vector Byte 20 :=
  #v[0xF0, 0x90, 0xF0, 0x90, 0xF0,  0xF0, 0x90, 0xF0, 0x10, 0xF0,
     0xF0, 0x90, 0xF0, 0x90, 0x90,  0xE0, 0x90, 0xE0, 0x90, 0xE0]

/-- Glyphs C to F of the default font (10_state R31). -/
def Config.glyphsCtoF : Vector Byte 20 :=
  #v[0xF0, 0x80, 0x80, 0x80, 0xF0,  0xE0, 0x90, 0x90, 0x90, 0xE0,
     0xF0, 0x80, 0xF0, 0x80, 0xF0,  0xF0, 0x80, 0xF0, 0x80, 0x80]

/-- The default of FONT: the table of 10_state R31, which the spec supplies from general knowledge (92 D14, 93 G1).
PRESUMED; log entry 2. Unsafe for a claim about font pixels of a run from reset; a claim about every state is free of
it. -/
def Config.defaultFont : Vector Byte 80 :=
  Config.glyphs0to3 ++ Config.glyphs4to7 ++ Config.glyphs8toB ++ Config.glyphsCtoF

/-- The parameters' defaults (R10). -/
def Config.defaultParams : Params := { vfOrder := .seqListed, font := Config.defaultFont }

/-- FREE VALUE: the byte the `rnd` input gives at the k-th draw of a run when the host's next bytes are not given in
the state (R41, R213; 92 D13: any byte, under no law). It has no body, so nothing can be proved of its value. Log entry 4; safe. -/
opaque Config.freeRnd : Nat → Byte

end Sys2Proof
end

