-- ==== Sys2Proof/Machine/State.lean ====
section
/-! DEFINITION. The state of the core (10_state R47), the reasons a step or a host move can stop, and the state after
reset. State is plain data: every field is a value that can be compared and written out. -/

namespace Sys2Proof.Machine

/-- Memory: the bytes that differ from what an unlisted address reads as, by rising address
(`Memory.wf` in Machine/Ops.lean). -/
abbrev Memory := List Host.Cell

/-- The framebuffer `FB[x][y]`: 64 columns of 32 rows, 1 bit each (10_state R35). -/
abbrev Framebuffer := Vector (Vector Bool 32) 64

/-- The errors a step can raise or a load can report (60_exceptions R371). -/
inductive ErrorKind where
  /-- Code 1: decode found no row for the opcode (R372). -/
  | unknownOpcode
  /-- Code 2: Fx29 with V[x] > 0xF (R373). -/
  | invalidDigit
  /-- Code 3: an image over 3584 bytes; a load result that sets no latch (R374). -/
  | oversizedProgram
  /-- Code 4: 2nnn with sp = 16 (R375). -/
  | stackOverflow
  /-- Code 5: 00EE with sp = 0 (R376). -/
  | stackUnderflow
  /-- Code 6: a fetch or data access above 0xFFF (R377). -/
  | addressFault
  /-- Code 7: Ex9E or ExA1 with V[x] > 0xF (R378). -/
  | keyIndexFault
  deriving DecidableEq, Repr

/-- Why the machine stops with a fault: NEVER. Every error of the spec is a latched error in a next state
(60_exceptions R370, log entry 6), so no meaning, no step and no host move raises a fault, and this type has no
constructor. -/
inductive Fault where
  deriving DecidableEq, Repr

/-- Why a move is refused. -/
inductive Refusal where
  /-- Raised by an arm of `exec` whose instruction has no meaning yet; no arm does. Safe. -/
  | notModelled (mnemonic : String)
  /-- Raised by `Session.run` only: a move other than `initialize` (or driving an input) before the first `initialize`
  (70_reset R422; 93 U16). Safe: the spec gives such a move no meaning. -/
  | beforeFirstReset
  /-- Raised by `Session.run` only: a second `loadProgram`, or one after a step, since the last `initialize` (R426; 93 U18;
  log entry 19 for the repeated `initialize`). Safe: the spec gives such a move no meaning. -/
  | loadOutOfOrder
  /-- Raised by `Session.run` only: a `step` after `loadProgram` returned `OversizedProgram` (20_memory R72; 93 U17).
  Safe: the host must not issue it. -/
  | stepAfterFailedLoad
  /-- Raised by `Session.run` only: a command while a step is suspended in Fx0A (20_memory R72; 93 U19). Safe: the host
  must not issue it. -/
  | commandWhileWaiting
  /-- Raised by `Session.run` only: a keypad sampling when no step is suspended (45_keypad R341). Safe: the core samples
  only while `waiting` = 1. -/
  | sampleWhileNotWaiting
  deriving DecidableEq, Repr

/-- The architectural state (10_state R47) with the host's inputs (R41) and the model's own fields at the end. -/
structure State where
  /-- V0..VF (R20); register 15 is also the flag VF (R23). -/
  v : Vector Byte 16
  /-- The index register I (R28). -/
  i : Word
  /-- The program counter (R25). -/
  pc : Word
  /-- The stack pointer, the number of entries in use, 0..16 (R29, R30). -/
  sp : Fin 17
  /-- The call stack (R29). -/
  stack : Vector Word 16
  /-- The delay timer DT (R33). -/
  dt : Byte
  /-- The sound timer ST (R34). -/
  st : Byte
  /-- The framebuffer FB (R35). -/
  fb : Framebuffer
  /-- Memory, 4096 bytes (R31; 20_memory R60). -/
  mem : Memory
  /-- The redraw flag (R37). -/
  redraw : Bool
  /-- The output `sound_active` (R42). -/
  soundActive : Bool
  /-- A step is suspended inside Fx0A (R38). -/
  waiting : Bool
  /-- The x field of the suspended Fx0A (R38). -/
  waitReg : Nibble
  /-- The error latch is set (R39). -/
  halted : Bool
  /-- The latched error code (R39). -/
  errCode : BitVec 4
  /-- The latched error value (R39). -/
  errValue : Word
  /-- The latched pc of the failing instruction (R39). -/
  errPc : Word
  /-- The input `keypad[15:0]`, bit k = key k is pressed, as the host last drove it (R36, R41). -/
  keypad : BitVec 16
  /-- The input `rnd`: the bytes the host is known to give at the coming draws, in order (R41, R13 `draw_rnd`). When it
  is empty a draw is a free value (log entry 4). -/
  rnd : List Byte
  /-- The model's own: how many bytes have been drawn, which selects the free byte (log entry 4). -/
  draws : Nat
  /-- The model's own: the parameters FONT and VF_ORDER (00_scope R10), never written (log entries 2 and 3). -/
  params : Params
  deriving DecidableEq, Repr

/-- The machine right after reset: the state `initialize` leaves at launch (10_state R47; 70_reset R420), with no key
pressed (R36), no byte of `rnd` known, and the parameters' defaults (00_scope R10). Nothing is listed in memory: an
unlisted address reads as its reset contents. -/
def State.reset : State where
  v := Vector.replicate 16 0x00
  i := 0x0000
  pc := 0x0200
  sp := 0
  stack := Vector.replicate 16 0x0000
  dt := 0x00
  st := 0x00
  fb := Vector.replicate 64 (Vector.replicate 32 false)
  mem := []
  redraw := false
  soundActive := false
  waiting := false
  waitReg := 0
  halted := false
  errCode := 0
  errValue := 0
  errPc := 0
  keypad := 0
  rnd := []
  draws := 0
  params := Config.defaultParams

end Sys2Proof.Machine
end

