-- ==== Sys2Proof/Machine/Ops.lean ====
section
/-! DEFINITION. The named operations over memory, registers, the stack, the program counter and the error latch, and
the parts of the step cycle (spec/40_step_cycle.md) that are no instruction's own. Every access to memory goes through
`State.readBlock` and `State.writeBlock`, which check the whole range first (00_scope R14). -/

namespace Sys2Proof.Machine

/-! ### Memory as data -/

/-- The size of memory, 4096 bytes (20_memory R60). -/
def Memory.size : Nat := 0x1000

/-- What an address that memory does not list reads as: its contents after reset, FONT at 0x000..0x04F and 0x00
elsewhere (70_reset R420; 20_memory R62). -/
def Memory.unlisted (font : Vector Byte 80) (a : Nat) : Byte :=
  if h : a < 80 then font[a] else 0x00

/-- The byte listed for address `a`, if any. -/
def Memory.lookup (a : Nat) : Memory → Option Byte
  | [] => none
  | (k, b) :: rest => if k = a then some b else Memory.lookup a rest

/-- Memory without an entry for address `a`. -/
def Memory.drop (a : Nat) : Memory → Memory
  | [] => []
  | (k, b) :: rest => if k = a then Memory.drop a rest else (k, b) :: Memory.drop a rest

/-- Memory that lists byte `b` for address `a`, at its place in rising order. -/
def Memory.put (a : Nat) (b : Byte) : Memory → Memory
  | [] => [(a, b)]
  | (k, c) :: rest =>
    if a < k then (a, b) :: (k, c) :: rest
    else if a = k then (a, b) :: rest
    else (k, c) :: Memory.put a b rest

/-- The byte memory holds at address `a` (`MemRead`, R13). -/
def Memory.read (font : Vector Byte 80) (m : Memory) (a : Nat) : Byte :=
  match Memory.lookup a m with
  | some b => b
  | none => Memory.unlisted font a

/-- Memory after byte `b` is written at address `a` (`MemWrite`, R13). Writing the byte an unlisted address reads as
takes the entry out. An address outside memory is not written (R14). -/
def Memory.write (font : Vector Byte 80) (m : Memory) (a : Nat) (b : Byte) : Memory :=
  if a < Memory.size then
    if b = Memory.unlisted font a then Memory.drop a m else Memory.put a b m
  else m

/-- Addresses rise strictly, none below `lo`, all of them exist, and no entry equals what an unlisted address reads
as. -/
def Memory.wfFrom (font : Vector Byte 80) : Nat → Memory → Bool
  | _, [] => true
  | lo, (k, b) :: rest =>
    decide (lo ≤ k) && decide (k < Memory.size) && decide (b ≠ Memory.unlisted font k)
      && Memory.wfFrom font (k + 1) rest

/-- The canonical form of memory, relative to the parameter FONT. -/
def Memory.wf (font : Vector Byte 80) (m : Memory) : Bool := Memory.wfFrom font 0 m

/-! ### Memory of a state -/

/-- The byte at address `a` (`MemRead(a, 1)`). -/
def State.readByte (s : State) (a : Nat) : Byte := Memory.read s.params.font s.mem a

/-- Write byte `b` at address `a` (`MemWrite(a, 1, b)`). -/
def State.writeByte (s : State) (a : Nat) (b : Byte) : State :=
  { s with mem := Memory.write s.params.font s.mem a b }

/-- Write bytes at `a`, `a + 1`, … in order. -/
def State.writeBytes (s : State) (a : Nat) : List Byte → State
  | [] => s
  | b :: bs => State.writeBytes (s.writeByte a b) (a + 1) bs

/-- The `n` bytes at `a`, `a + 1`, … in order. -/
def State.readBytes (s : State) (a : Nat) : Nat → List Byte
  | 0 => []
  | n + 1 => s.readByte a :: s.readBytes (a + 1) n

/-- The check every access makes before it reads or writes: the lowest address of the `n` bytes from `base` that lies
outside memory, if there is one. Addresses are unbounded sums, never wrapped (20_memory R68; 43_index R250). -/
def blockFault (base : Word) (n : Nat) : Option Word :=
  if 0 < n ∧ 0xFFF < base.toNat + n - 1 then some (BitVec.ofNat 16 (max base.toNat 0x1000)) else none

/-- Read the `n` bytes from `base`, or answer the address that faults and read nothing (R68). -/
def State.readBlock (s : State) (base : Word) (n : Nat) : Except Word (List Byte) :=
  match blockFault base n with
  | some a => .error a
  | none => .ok (s.readBytes base.toNat n)

/-- Write `bs` from `base` on, or answer the address that faults and write nothing (R68). -/
def State.writeBlock (s : State) (base : Word) (bs : List Byte) : Except Word State :=
  match blockFault base bs.length with
  | some a => .error a
  | none => .ok (s.writeBytes base.toNat bs)

/-! ### Registers -/

/-- Read general register `x` (10_state R20). -/
def State.reg (s : State) (x : Nibble) : Byte := s.v[x.toNat]

/-- Write general register `x` (R20). No register is hardwired. -/
def State.setReg (s : State) (x : Nibble) (b : Byte) : State := { s with v := s.v.set x.toNat b }

/-- Write the flag register VF, which is V[0xF] (R23). -/
def State.setVF (s : State) (b : Byte) : State := s.setReg 0xF b

/-- Write bytes to V[k], V[k+1], … as far as there are registers. -/
def State.setRegsFrom (s : State) (k : Nat) : List Byte → State
  | [] => s
  | b :: bs => State.setRegsFrom (s.setReg (BitVec.ofNat 4 k) b) (k + 1) bs

/-- The contents of V[0] .. V[x] (Fx55, R255). -/
def State.regsUpTo (s : State) (x : Nibble) : List Byte := s.v.toList.take (x.toNat + 1)

/-! ### Program counter (40_step_cycle R125) -/

/-- The kind "advance": pc + 2. -/
def State.advance (s : State) : State := { s with pc := s.pc + 2 }

/-- The kind "skip": pc + 4 if the condition holds, else pc + 2 (R125, R150). -/
def State.skipIf (s : State) (c : Bool) : State := { s with pc := if c then s.pc + 4 else s.pc + 2 }

/-- The kind "set": the target, with no advance. -/
def State.jumpTo (s : State) (target : Word) : State := { s with pc := target }

/-! ### Call stack (10_state R29, R30) -/

/-- Push a return address: `stack[sp] <- w; sp <- sp + 1`. Nothing when the stack is full. -/
def State.push? (s : State) (w : Word) : Option State :=
  if h : s.sp.val < 16 then
    some { s with stack := s.stack.set s.sp.val w h, sp := ⟨s.sp.val + 1, by omega⟩ }
  else none

/-- Pop a return address: `sp <- sp - 1; stack[sp]`. Nothing when the stack is empty; the entry keeps its value
(R151). -/
def State.pop? (s : State) : Option (Word × State) :=
  if h : 0 < s.sp.val then
    some (s.stack[s.sp.val - 1]'(by omega), { s with sp := ⟨s.sp.val - 1, by omega⟩ })
  else none

/-! ### Raising an error (60_exceptions R370) -/

/-- The numeric code of an error (R371). -/
def ErrorKind.code : ErrorKind → BitVec 4
  | .unknownOpcode => 1
  | .invalidDigit => 2
  | .oversizedProgram => 3
  | .stackOverflow => 4
  | .stackUnderflow => 5
  | .addressFault => 6
  | .keyIndexFault => 7

/-- `raise E(value)`: the latch takes the code, the value and the pc of the failing instruction, and nothing else is
written (R370). There is no way back but `initialize` (R381). -/
def State.raise (s : State) (e : ErrorKind) (value : Word) : State :=
  { s with halted := true, errCode := e.code, errValue := value, errPc := s.pc }

/-! ### Stages of the step that are no instruction's own (40_step_cycle R120) -/

/-- Stage 1: the opcode at pc, big-endian, or the address that faults (R121). -/
def State.fetch (s : State) : Except Word (List Byte) := s.readBlock s.pc 2

/-- Stage 2: clear the per-step outputs (R122). -/
def State.clearOutputs (s : State) : State := { s with redraw := false, soundActive := false }

/-- One countdown of a timer: down by one, 0 stays 0 (R129, R130). -/
def countDown (t : Byte) : Byte := if t = 0 then 0 else t - 1

/-- Stage 5: both timers count down, and `sound_active` is 1 exactly when ST did (R129, R130, R131; log entry 12). -/
def State.tickTimers (s : State) : State :=
  { s with dt := countDown s.dt, st := countDown s.st, soundActive := decide (s.st ≠ 0) }

/-! ### Inputs -/

/-- `draw_rnd()`: the next value of the `rnd` input (R13, R213). The byte is the host's next one where the state gives
it, else the free byte of this draw. -/
def State.drawnByte (s : State) : Byte :=
  match s.rnd with
  | b :: _ => b
  | [] => Config.freeRnd s.draws

/-- The inputs after one draw. -/
def State.afterDraw (s : State) : State := { s with rnd := s.rnd.tail, draws := s.draws + 1 }

/-- Is key `k` pressed? (10_state R36) -/
def State.keyPressed (s : State) (k : Nat) : Bool := s.keypad.getLsbD k

/-- The lowest pressed key, if any key is pressed: `min { k | keypad[k] = 1 }` (45_keypad R340, R342). -/
def State.lowestKey (s : State) : Option Nat := (List.range 16).find? (fun k => s.keyPressed k)

end Sys2Proof.Machine
end

