-- ==== Sys2Proof/Machine/Operands.lean ====
section
/-! DEFINITION. The operand forms (30_encoding R91, R93): what a rule makes of a field or of the value a field names.
A register operand is read by `State.reg`, memory operands by `State.readBlock` (Machine/Ops.lean). -/

namespace Sys2Proof.Machine

/-- `zext_16(nnn)`: a 12-bit address as a 16-bit value (R93). -/
def zextAddr (nnn : Addr) : Word := nnn.setWidth 16

/-- `zext_16(b)`: a byte as a 16-bit value (R12). -/
def zextByte (b : Byte) : Word := b.setWidth 16

/-- Does a byte name a hexadecimal digit or a key, 0x0..0xF? (R253, R330) -/
def isDigit (b : Byte) : Bool := decide (b.toNat ≤ 0xF)

/-- The address of the glyph of digit `b`: FONT_BASE + 5·b with FONT_BASE = 0 (R253). -/
def glyphAddr (b : Byte) : Word := zextByte b * 5

/-- The three decimal digits of a byte: hundreds, tens, ones (R254). -/
def bcdDigits (b : Byte) : List Byte := [b / 100, b / 10 % 10, b % 10]

/-- The number of bytes Fx55 and Fx65 move: V0..Vx (R255, R256). -/
def blockLength (x : Nibble) : Nat := x.toNat + 1

end Sys2Proof.Machine
end

