-- ==== Sys2Proof/Machine/ControlFlow.lean ====
section
/-! DEFINITION. The meanings of spec/41_control_flow.md: return, jumps, call and the register skips. Each is stage 4 of
the step: `pc` still holds the address of the instruction (40_step_cycle R124). -/

namespace Sys2Proof.Machine

/-- 00EE (R151): pop the calling 2nnn's address and go on after it; an empty stack raises
`StackUnderflow(0x00EE)`. -/
def execRet (s : State) : Host.Outcome State Fault Refusal :=
  match s.pop? with
  | none => .next (s.raise .stackUnderflow (encode .ret))
  | some (w, t) => .next (t.jumpTo w).advance

/-- 1nnn (R152). -/
def execJp (nnn : Addr) (s : State) : Host.Outcome State Fault Refusal :=
  .next (s.jumpTo (zextAddr nnn))

/-- 2nnn (R153): push this instruction's own address; a full stack raises `StackOverflow(op)`. -/
def execCall (nnn : Addr) (s : State) : Host.Outcome State Fault Refusal :=
  match s.push? s.pc with
  | none => .next (s.raise .stackOverflow (encode (.call nnn)))
  | some t => .next (t.jumpTo (zextAddr nnn))

/-- 3xkk (R154). -/
def execSeByte (x : Nibble) (kk : Byte) (s : State) : Host.Outcome State Fault Refusal :=
  .next (s.skipIf (s.reg x == kk))

/-- 4xkk (R155). -/
def execSneByte (x : Nibble) (kk : Byte) (s : State) : Host.Outcome State Fault Refusal :=
  .next (s.skipIf (s.reg x != kk))

/-- 5xy0 (R156). -/
def execSeReg (x y : Nibble) (s : State) : Host.Outcome State Fault Refusal :=
  .next (s.skipIf (s.reg x == s.reg y))

/-- 9xy0 (R157). -/
def execSneReg (x y : Nibble) (s : State) : Host.Outcome State Fault Refusal :=
  .next (s.skipIf (s.reg x != s.reg y))

/-- Bnnn (R158): the register is V0 always, and the sum is not reduced to 12 bits. -/
def execJpV0 (nnn : Addr) (s : State) : Host.Outcome State Fault Refusal :=
  .next (s.jumpTo (zextAddr nnn + zextByte (s.reg 0)))

end Sys2Proof.Machine
end

