-- ==== Sys2Proof/Machine/Flags.lean ====
section
/-! DEFINITION. The flag computations: what 8xy4, 8xy5, 8xy6, 8xy7, 8xyE and Dxyn write to VF (10_state R23;
42_register_alu R207 to R211, R214; 44_display R302). No other instruction writes VF as a flag. -/

namespace Sys2Proof.Machine

/-- A condition as the byte VF takes: 1 or 0. -/
def flagByte (c : Bool) : Byte := if c then 1 else 0

/-- Carry of 8xy4: the unwrapped sum exceeds 255 (R207). -/
def carryOf (a b : Byte) : Bool := decide (a.toNat + b.toNat > 255)

/-- NOT borrow of `a - b`: the minuend is at least the subtrahend (R208, R210). -/
def noBorrow (a b : Byte) : Bool := decide (b.toNat ≤ a.toNat)

/-- The bit 8xy6 shifts out: bit 0, as a byte (R209). -/
def shiftedOutRight (a : Byte) : Byte := a &&& 1

/-- The bit 8xyE shifts out: bit 7, as a byte (R211). -/
def shiftedOutLeft (a : Byte) : Byte := a >>> 7

end Sys2Proof.Machine
end

