-- ==== Sys2Proof/Machine/Display.lean ====
section
/-! DEFINITION. The meanings of spec/44_display.md: display clear and the XOR-blend sprite rasterizer. Each of the two
sets `redraw` every time it completes, whether or not a pixel changed (R300). -/

namespace Sys2Proof.Machine

/-- The pixel at column `x`, row `y` (10_state R35). -/
def Framebuffer.pixel (fb : Framebuffer) (x : Fin 64) (y : Fin 32) : Bool := fb[x.val][y.val]

/-- The framebuffer with the pixel at column `x`, row `y` turned over. -/
def Framebuffer.flip (fb : Framebuffer) (x : Fin 64) (y : Fin 32) : Framebuffer :=
  fb.set x.val (fb[x.val].set y.val (!fb[x.val][y.val]))

/-- The framebuffer with every pixel off (R301). -/
def Framebuffer.blank : Framebuffer := Vector.replicate 64 (Vector.replicate 32 false)

/-- What drawing a sprite works on: the pixels so far, and whether a lit pixel was turned off. -/
structure Canvas where
  fb : Framebuffer
  collision : Bool
  deriving DecidableEq, Repr

/-- One set bit of a sprite at a pixel: note a collision if the pixel is lit, and turn it over (R302). -/
def Canvas.plot (c : Canvas) (x : Fin 64) (y : Fin 32) : Canvas :=
  { fb := c.fb.flip x y, collision := c.collision || c.fb.pixel x y }

/-- The column `cx + col`, wrapped at the screen edge (R302). -/
def wrapColumn (cx col : Nat) : Fin 64 := Fin.ofNat 64 (cx + col)

/-- The row `cy + row`, wrapped at the screen edge (R302). -/
def wrapRow (cy row : Nat) : Fin 32 := Fin.ofNat 32 (cy + row)

/-- Column `col` of sprite byte `b` (the most significant bit is column 0): a zero bit leaves its pixel as it was. -/
def Canvas.drawBit (cx cy row : Nat) (b : Byte) (c : Canvas) (col : Nat) : Canvas :=
  if b.getLsbD (7 - col) then c.plot (wrapColumn cx col) (wrapRow cy row) else c

/-- Sprite row `row`: the eight columns of `b`, left to right. -/
def Canvas.drawRow (cx cy row : Nat) (b : Byte) (c : Canvas) : Canvas :=
  (List.range 8).foldl (fun d col => d.drawBit cx cy row b col) c

/-- The sprite's rows from `row` on, top row first. -/
def Canvas.drawRows (cx cy : Nat) : Nat → List Byte → Canvas → Canvas
  | _, [], c => c
  | row, b :: bs, c => Canvas.drawRows cx cy (row + 1) bs (c.drawRow cx cy row b)

/-- A whole sprite at (cx, cy), with no collision seen yet. -/
def drawSprite (cx cy : Byte) (sprite : List Byte) (fb : Framebuffer) : Canvas :=
  Canvas.drawRows cx.toNat cy.toNat 0 sprite { fb := fb, collision := false }

/-- 00E0 (R301). -/
def execCls (s : State) : Host.Outcome State Fault Refusal :=
  .next { s with fb := Framebuffer.blank, redraw := true }.advance

/-- Dxyn (R302, R303): V[x], V[y] and I are read before any write, the n bytes are checked before any pixel, and VF is
written once, last, as the collision of the whole sprite. -/
def execDrw (x y n : Nibble) (s : State) : Host.Outcome State Fault Refusal :=
  match s.readBlock s.i n.toNat with
  | .error a => .next (s.raise .addressFault a)
  | .ok sprite =>
    let c := drawSprite (s.reg x) (s.reg y) sprite s.fb
    .next ({ s with fb := c.fb, redraw := true }.setVF (flagByte c.collision)).advance

end Sys2Proof.Machine
end

