-- ==== Sys2Proof/Machine/IndexMemory.lean ====
section
/-! DEFINITION. The meanings of spec/43_index_memory.md: the index register and the memory instructions. Data addresses
are `I + k`, unbounded and never wrapped; the whole range is checked before anything is written, and `I` is never
changed as a side effect (R250). -/

namespace Sys2Proof.Machine

/-- Annn (R251). -/
def execLdI (nnn : Addr) (s : State) : Host.Outcome State Fault Refusal :=
  .next { s with i := zextAddr nnn }.advance

/-- Fx1E (R252): modulo 2^16, no flag. -/
def execAddI (x : Nibble) (s : State) : Host.Outcome State Fault Refusal :=
  .next { s with i := s.i + zextByte (s.reg x) }.advance

/-- Fx29 (R253): a value above 0xF raises `InvalidDigit(V[x])`. -/
def execLdF (x : Nibble) (s : State) : Host.Outcome State Fault Refusal :=
  if isDigit (s.reg x) then .next { s with i := glyphAddr (s.reg x) }.advance
  else .next (s.raise .invalidDigit (zextByte (s.reg x)))

/-- Fx33 (R254): the three decimal digits of V[x] at I, I+1, I+2. -/
def execLdB (x : Nibble) (s : State) : Host.Outcome State Fault Refusal :=
  match s.writeBlock s.i (bcdDigits (s.reg x)) with
  | .error a => .next (s.raise .addressFault a)
  | .ok t => .next t.advance

/-- Fx55 (R255): V0..Vx to I .. I+x. -/
def execStRegs (x : Nibble) (s : State) : Host.Outcome State Fault Refusal :=
  match s.writeBlock s.i (s.regsUpTo x) with
  | .error a => .next (s.raise .addressFault a)
  | .ok t => .next t.advance

/-- Fx65 (R256): I .. I+x to V0..Vx. -/
def execLdRegs (x : Nibble) (s : State) : Host.Outcome State Fault Refusal :=
  match s.readBlock s.i (blockLength x) with
  | .error a => .next (s.raise .addressFault a)
  | .ok bs => .next (s.setRegsFrom 0 bs).advance

end Sys2Proof.Machine
end

