-- ==== Sys2Proof/Machine/KeypadTimers.lean ====
section
/-! DEFINITION. The meanings of spec/45_keypad_timers.md: keypad skips, the wait for a key, and the timers' reads and
writes. The countdown is stage 5 of the step, not part of these (40_step_cycle R129). -/

namespace Sys2Proof.Machine

/-- Ex9E (R331): a value above 0xF names no key and raises `KeyIndexFault(V[x])` (R330). -/
def execSkp (x : Nibble) (s : State) : Host.Outcome State Fault Refusal :=
  if isDigit (s.reg x) then .next (s.skipIf (s.keyPressed (s.reg x).toNat))
  else .next (s.raise .keyIndexFault (zextByte (s.reg x)))

/-- ExA1 (R332): as Ex9E, skipping when the key is not pressed. -/
def execSknp (x : Nibble) (s : State) : Host.Outcome State Fault Refusal :=
  if isDigit (s.reg x) then .next (s.skipIf (!s.keyPressed (s.reg x).toNat))
  else .next (s.raise .keyIndexFault (zextByte (s.reg x)))

/-- Fx07 (R333): DT before this step's countdown. -/
def execLdVxDt (x : Nibble) (s : State) : Host.Outcome State Fault Refusal :=
  .next (s.setReg x s.dt).advance

/-- Fx0A ends: V[x] takes the key's index and pc moves on (R340, R342). -/
def State.takeKey (s : State) (x : Nibble) (k : Nat) : State := (s.setReg x (BitVec.ofNat 8 k)).advance

/-- Fx0A, entry (R340): the lowest pressed key, or the step is suspended with pc at this instruction (R341). -/
def execLdVxK (x : Nibble) (s : State) : Host.Outcome State Fault Refusal :=
  match s.lowestKey with
  | some k => .next (s.takeKey x k)
  | none => .next { s with waiting := true, waitReg := x }

/-- Fx15 (R350). -/
def execLdDtVx (x : Nibble) (s : State) : Host.Outcome State Fault Refusal :=
  .next { s with dt := s.reg x }.advance

/-- Fx18 (R351). -/
def execLdStVx (x : Nibble) (s : State) : Host.Outcome State Fault Refusal :=
  .next { s with st := s.reg x }.advance

end Sys2Proof.Machine
end

