-- ==== Sys2Proof/Machine/RegisterAlu.lean ====
section
/-! DEFINITION. The meanings of spec/42_register_alu.md: register loads, the ALU and the random byte. Each reads and
writes only general registers (and the `rnd` input for Cxkk), advances pc by 2 and raises nothing (R200). -/

namespace Sys2Proof.Machine

/-- 6xkk (R201). -/
def execLdByte (x : Nibble) (kk : Byte) (s : State) : Host.Outcome State Fault Refusal :=
  .next (s.setReg x kk).advance

/-- 7xkk (R202): modulo 256, no flag. -/
def execAddByte (x : Nibble) (kk : Byte) (s : State) : Host.Outcome State Fault Refusal :=
  .next (s.setReg x (s.reg x + kk)).advance

/-- 8xy0 (R203). -/
def execLdReg (x y : Nibble) (s : State) : Host.Outcome State Fault Refusal :=
  .next (s.setReg x (s.reg y)).advance

/-- 8xy1 (R204): VF is not reset. -/
def execOrReg (x y : Nibble) (s : State) : Host.Outcome State Fault Refusal :=
  .next (s.setReg x (s.reg x ||| s.reg y)).advance

/-- 8xy2 (R205): VF is not reset. -/
def execAndReg (x y : Nibble) (s : State) : Host.Outcome State Fault Refusal :=
  .next (s.setReg x (s.reg x &&& s.reg y)).advance

/-- 8xy3 (R206): VF is not reset. -/
def execXorReg (x y : Nibble) (s : State) : Host.Outcome State Fault Refusal :=
  .next (s.setReg x (s.reg x ^^^ s.reg y)).advance

/-- 8xy4 (R207): the sum modulo 256, then VF as the carry; both from the operands before the instruction. -/
def execAddReg (x y : Nibble) (s : State) : Host.Outcome State Fault Refusal :=
  .next ((s.setReg x (s.reg x + s.reg y)).setVF (flagByte (carryOf (s.reg x) (s.reg y)))).advance

/-- 8xy5 (R208): Vx − Vy modulo 256, then VF as NOT borrow. -/
def execSubReg (x y : Nibble) (s : State) : Host.Outcome State Fault Refusal :=
  .next ((s.setReg x (s.reg x - s.reg y)).setVF (flagByte (noBorrow (s.reg x) (s.reg y)))).advance

/-- 8xy6 (R209): shift Vx right by one, VF takes the bit shifted out; `y` is ignored (30_encoding R101). The order of
the two writes is VF_ORDER, and in the listed order the shift reads Vx after VF was written (R212). -/
def execShr (x _y : Nibble) (s : State) : Host.Outcome State Fault Refusal :=
  match s.params.vfOrder with
  | .seqListed =>
    let t := s.setVF (shiftedOutRight (s.reg x))
    .next (t.setReg x (t.reg x >>> 1)).advance
  | .flagLast => .next ((s.setReg x (s.reg x >>> 1)).setVF (shiftedOutRight (s.reg x))).advance

/-- 8xy7 (R210): Vy − Vx modulo 256, then VF as NOT borrow. -/
def execSubnReg (x y : Nibble) (s : State) : Host.Outcome State Fault Refusal :=
  .next ((s.setReg x (s.reg y - s.reg x)).setVF (flagByte (noBorrow (s.reg y) (s.reg x)))).advance

/-- 8xyE (R211): shift Vx left by one, VF takes the bit shifted out; `y` is ignored (30_encoding R101). The order of the
two writes is VF_ORDER, as for 8xy6 (R212). -/
def execShl (x _y : Nibble) (s : State) : Host.Outcome State Fault Refusal :=
  match s.params.vfOrder with
  | .seqListed =>
    let t := s.setVF (shiftedOutLeft (s.reg x))
    .next (t.setReg x (t.reg x <<< 1)).advance
  | .flagLast => .next ((s.setReg x (s.reg x <<< 1)).setVF (shiftedOutLeft (s.reg x))).advance

/-- Cxkk (R213): the drawn byte masked with kk. -/
def execRnd (x : Nibble) (kk : Byte) (s : State) : Host.Outcome State Fault Refusal :=
  .next (s.afterDraw.setReg x (s.drawnByte &&& kk)).advance

end Sys2Proof.Machine
end

