-- ==== Sys2Proof/Machine/Cycle.lean ====
section
/-! DEFINITION. The step cycle around execute (spec/40_step_cycle.md R120): fetch, clear, decode, execute, timers, and
the two states in which a step fetches nothing, halted and waiting. Machine/Step.lean calls it. -/

namespace Sys2Proof.Machine

/-- Stage 5 after execute: the timers count down unless the instruction raised an error (R128, R370) or suspended the
step (R133). -/
def finishStep (t : State) : State := if t.halted || t.waiting then t else t.tickTimers

/-- Stages 3 to 5 on the fetched bytes: decode, execute on the state with its outputs cleared (R122 to R124), then the
timers. An opcode no row selects raises `UnknownOpcode(op)` with the outputs cleared (R123). -/
def runFetched (bytes : List Byte) (s : State) : Host.Outcome State Fault Refusal :=
  match decodeBytes bytes with
  | .instr i =>
    match exec i s.clearOutputs with
    | .next t => .next (finishStep t)
    | .fault r => .fault r
    | .refused r => .refused r
  | .unknownOpcode op => .next (s.clearOutputs.raise .unknownOpcode op)
  | .truncated => .next s

/-- A step that is neither halted nor waiting: the fetch, which on a bad address raises `AddressFault` and leaves the
outputs as they were (R121), then the rest. -/
def fetchAndRun (s : State) : Host.Outcome State Fault Refusal :=
  match s.fetch with
  | .error a => .next (s.raise .addressFault a)
  | .ok bytes => runFetched bytes s

/-- One sampling of the keypad by a suspended Fx0A (45_keypad R341, R342): a pressed key completes the instruction and
the step; with no key pressed nothing changes (log entry 8). -/
def sampleKeypad (s : State) : State :=
  match s.lowestKey with
  | some k => ({ s with waiting := false }.takeKey s.waitReg k).tickTimers
  | none => s

/-- One move of the core: a halted core does nothing (R134), a waiting one samples the keypad, any other runs one
instruction (R120). -/
def stepCycle (s : State) : Host.Outcome State Fault Refusal :=
  if s.halted then .next s
  else if s.waiting then .next (sampleKeypad s)
  else fetchAndRun s

/-- `s` made ready to fetch the instruction whose table bits are `w`: its two bytes at pc (at 0x200 where pc cannot be
fetched from, R121), and neither halted nor waiting. It stands for the load of a program (log entry 11). -/
def placeWord (s : State) (nbits w : Nat) : State :=
  let pc := if s.pc.toNat ≤ 0xFFE then s.pc else 0x0200
  { s with pc := pc, halted := false, waiting := false }.writeBytes pc.toNat (opcodeBytes (tableOpcode nbits w))

end Sys2Proof.Machine
end

