-- ==== Sys2Proof/Machine/Step.lean ====
section
/-! DEFINITION. The step (40_step_cycle R120) and the state that is about to fetch a given instruction, both under the
names the host fixes. The bodies are in Machine/Cycle.lean. -/

namespace Sys2Proof.Machine

/-- One move of the core. -/
def step (s : State) : Host.Outcome State Fault Refusal := Sys2Proof.Machine.stepCycle s

/-- `s` with the instruction whose table bits are `w` placed where the next step fetches. -/
def State.withFetchWord (s : State) (nbits w : Nat) : State := Sys2Proof.Machine.placeWord s nbits w

end Sys2Proof.Machine
end

