-- ==== Sys2Proof/Machine/Commands.lean ====
section
/-! DEFINITION. The core's boundary (10_state R40 to R45): the host commands `initialize` and `loadProgram`, the step's
result, the inputs the host drives, the outputs it reads, and the order in which the host may issue its moves
(20_memory R72; 70_reset R426; 93 U16 to U19). The core's own move is `step`; nothing here is part of it. -/

namespace Sys2Proof.Machine

/-! ### Commands -/

/-- The command `initialize` (70_reset R420): every piece of state takes its reset value; the inputs `keypad` and
`rnd` are not touched, and the parameters are no state. -/
def State.initialise (s : State) : State :=
  { State.reset with keypad := s.keypad, rnd := s.rnd, draws := s.draws, params := s.params }

/-- What `loadProgram` returns (10_state R40). -/
inductive LoadResult where
  /-- `Ok`. -/
  | ok
  /-- `OversizedProgram`, code 3, with the image's length saturated to 0xFFFF (60_exceptions R371, R374). -/
  | oversizedProgram (len : Word)
  deriving DecidableEq, Repr

/-- The largest image, 3584 bytes, which fills 0x200..0xFFF (00_scope R9; 70_reset R424). -/
def progMax : Nat := 3584

/-- The command `loadProgram(img)` (70_reset R423): an image over 3584 bytes writes nothing and sets no latch (R425),
any other is copied to 0x200 on, unchecked. -/
def State.loadProgram (s : State) (img : List Byte) : LoadResult × State :=
  if progMax < img.length then (.oversizedProgram (BitVec.ofNat 16 (min img.length 0xFFFF)), s)
  else (.ok, s.writeBytes 0x200 img)

/-- How a `step` command completes (10_state R43). -/
inductive StepResult where
  /-- `Ok`; the flag tells whether the sound timer counted down. -/
  | ok (soundActive : Bool)
  /-- `Err(code, value)`: the core is now halted. -/
  | err (code : BitVec 4) (value : Word)
  /-- `Halted`: the core was halted already and nothing happened. -/
  | halted
  /-- Not completed: the step is suspended in Fx0A (R38). -/
  | suspended
  deriving DecidableEq, Repr

/-- The result of the core's move from `s` to `t` (R43; 40_step_cycle R120, R134). -/
def stepResult (s t : State) : StepResult :=
  if s.halted then .halted
  else if t.halted then .err t.errCode t.errValue
  else if t.waiting then .suspended
  else .ok t.soundActive

/-! ### Inputs and outputs -/

/-- The host drives the key inputs (R41, R44). -/
def State.driveKeypad (s : State) (keys : BitVec 16) : State := { s with keypad := keys }

/-- The host fixes the bytes `rnd` gives at the coming draws (R41). -/
def State.driveRnd (s : State) (bytes : List Byte) : State := { s with rnd := bytes }

/-- The outputs (R42). -/
structure Outputs where
  fb : Framebuffer
  redraw : Bool
  soundActive : Bool
  waiting : Bool
  halted : Bool
  errCode : BitVec 4
  errValue : Word
  errPc : Word
  deriving DecidableEq, Repr

/-- What the host reads between steps (R42). -/
def State.outputs (s : State) : Outputs :=
  { fb := s.fb, redraw := s.redraw, soundActive := s.soundActive, waiting := s.waiting, halted := s.halted,
    errCode := s.errCode, errValue := s.errValue, errPc := s.errPc }

/-! ### The order of the host's moves -/

/-- Where the host is in the launch sequence (70_reset R426), counted from the last `initialize` (DESIGN CHOICE, log entry
19). -/
inductive Phase where
  /-- Before the first `initialize`: the core's state is undefined (R422). -/
  | unready
  /-- After `initialize`, the first or a repeated one, before a load and before a step. -/
  | fresh
  /-- After `loadProgram` returned `Ok`, before a step. -/
  | loaded
  /-- After `loadProgram` returned `OversizedProgram`. -/
  | loadFailed
  /-- After the first step. -/
  | stepped
  deriving DecidableEq, Repr

/-- A core and the host's place in the launch sequence. -/
structure Session where
  core : State
  phase : Phase
  deriving DecidableEq, Repr

/-- A move at the core's boundary (R40, R41; 45_keypad R341). -/
inductive Move where
  /-- The command `initialize`. -/
  | initialise
  /-- The command `loadProgram(img)`. -/
  | loadProgram (img : List Byte)
  /-- The command `step`. -/
  | step
  /-- The core samples the keypad for a suspended Fx0A. -/
  | sample
  /-- The host drives `keypad`. -/
  | driveKeypad (keys : BitVec 16)
  /-- The host drives `rnd`. -/
  | driveRnd (bytes : List Byte)
  deriving DecidableEq, Repr

/-- What a move answers. -/
inductive Reply where
  /-- Nothing. -/
  | none
  /-- The result of `loadProgram`. -/
  | load (r : LoadResult)
  /-- The result of `step`, or of a step that a sampling completes. -/
  | step (r : StepResult)
  deriving DecidableEq, Repr

/-- A move of the core inside a session: the session after it and the step's result. -/
def Session.coreMove (σ : Session) : Host.Outcome (Session × Reply) Fault Refusal :=
  match step σ.core with
  | .next t => .next ({ core := t, phase := .stepped }, .step (stepResult σ.core t))
  | .fault r => .fault r
  | .refused r => .refused r

/-- `loadProgram` inside a session (R423): admitted once after `initialize` and before the first step after it (R426).
That a repeated `initialize` opens it again is the model's choice (DESIGN CHOICE, log entry 19). -/
def Session.load (σ : Session) (img : List Byte) : Host.Outcome (Session × Reply) Fault Refusal :=
  match σ.phase with
  | .fresh =>
    match σ.core.loadProgram img with
    | (.ok, t) => .next ({ core := t, phase := .loaded }, .load .ok)
    | (.oversizedProgram n, t) => .next ({ core := t, phase := .loadFailed }, .load (.oversizedProgram n))
  | .unready => .refused .beforeFirstReset
  | .loaded | .loadFailed | .stepped => .refused .loadOutOfOrder

/-- A suspended step is in progress: only after the first `initialize` does `waiting` mean anything (R422). -/
def Session.suspended (σ : Session) : Bool := decide (σ.phase ≠ .unready) && σ.core.waiting

/-- One move of a session. A move the host table forbids has no meaning and is refused by name (R72; 93 U16 to U19).
R72 admits `initialize` whenever no step is in progress, and no rule says what a repeated one does to the launch
sequence. Here it starts the sequence again: the phase is `fresh`, a load is admitted once more, and the ban on stepping
after a failed load is lifted (DESIGN CHOICE, log entry 19). -/
def Session.run (σ : Session) (m : Move) : Host.Outcome (Session × Reply) Fault Refusal :=
  match m with
  | .driveKeypad keys => .next ({ σ with core := σ.core.driveKeypad keys }, .none)
  | .driveRnd bytes => .next ({ σ with core := σ.core.driveRnd bytes }, .none)
  | .initialise =>
    if σ.suspended then .refused .commandWhileWaiting
    else .next ({ core := σ.core.initialise, phase := .fresh }, .none)
  | .loadProgram img => if σ.suspended then .refused .commandWhileWaiting else σ.load img
  | .step =>
    if σ.phase = .unready then .refused .beforeFirstReset
    else if σ.phase = .loadFailed then .refused .stepAfterFailedLoad
    else if σ.suspended then .refused .commandWhileWaiting
    else σ.coreMove
  | .sample =>
    if σ.phase = .unready then .refused .beforeFirstReset
    else if σ.suspended then σ.coreMove
    else .refused .sampleWhileNotWaiting

end Sys2Proof.Machine
end

