-- ==== Sys2Proof/Safety.lean ====
section
/-! DEFINITION. The terms claims are stated in: what a safe run is, what a step leaves unchanged, the invariants of the
machine, and what a sprite covers, each said without the operation it is a claim about. -/

namespace Sys2Proof.Machine

/-! ### Safe runs -/

/-- A state in which the next step fetches an instruction: neither halted nor suspended (40_step_cycle R120). -/
def State.Ready (s : State) : Prop := s.halted = false ∧ s.waiting = false

/-- The first `n` steps from `s` raise no error (60_exceptions R370). -/
def SafeRun (n : Nat) (s : State) : Prop :=
  ∀ k, k ≤ n → ∃ t, Sys2Proof.core.run k s = .next t ∧ t.halted = false

/-- Both bytes of the opcode at pc are in memory (R121). -/
def State.Fetchable (s : State) : Prop := s.pc.toNat + 1 ≤ 0xFFF

/-- The opcode at pc, the byte at the lower address in bits 15..8 (R121). -/
def State.opcodeAtPc (s : State) : Word := s.readByte s.pc.toNat ++ s.readByte (s.pc.toNat + 1)

/-! ### What is left unchanged -/

/-- Every register but those listed is unchanged. -/
def State.KeepsRegs (s t : State) (dst : List Nibble) : Prop := ∀ r, r ∉ dst → t.reg r = s.reg r

/-- Every byte of memory is unchanged. -/
def State.KeepsMemory (s t : State) : Prop := ∀ a, t.readByte a = s.readByte a

/-- Only the listed registers and pc changed: no other register, no byte of memory, no other field of the state. -/
def State.OnlyRegsAndPc (s t : State) (dst : List Nibble) : Prop :=
  s.KeepsRegs t dst ∧ s.KeepsMemory t ∧ { t with v := s.v, pc := s.pc } = s

/-- Only the `n` bytes from address `a` and pc changed: no register, no other byte, no other field of the state. -/
def State.OnlyBytesAndPc (s t : State) (a n : Nat) : Prop :=
  (∀ b, ¬ (a ≤ b ∧ b < a + n) → t.readByte b = s.readByte b) ∧ { t with mem := s.mem, pc := s.pc } = s

/-- The state an error leaves: the latch takes the code, the value and pc, and nothing else is written (R370). -/
def State.latched (s : State) (code : BitVec 4) (value : Word) : State :=
  { s with halted := true, errCode := code, errValue := value, errPc := s.pc }

/-- Stack entry `j` (10_state R29). -/
def State.entry (s : State) (j : Nat) : Word := if h : j < 16 then s.stack[j] else 0

/-- The condition as the byte a flag takes. -/
def bit01 (c : Prop) [Decidable c] : Byte := if c then 1 else 0

/-- The stage 2 clear of 40_step_cycle R122. -/
def State.cleared (s : State) : State := { s with redraw := false, soundActive := false }

/-- DT as execute leaves it: Fx15 writes it, nothing else does (10_state R33). -/
def State.dtLeftBy (s : State) : Instr → Byte
  | .ldDtVx x => s.reg x
  | _ => s.dt

/-- ST as execute leaves it: Fx18 writes it, nothing else does (10_state R34). -/
def State.stLeftBy (s : State) : Instr → Byte
  | .ldStVx x => s.reg x
  | _ => s.st

/-! ### Invariants -/

/-- Memory is in its canonical form. -/
def State.MemoryCanonical (s : State) : Prop := Memory.wf s.params.font s.mem = true

/-- Where pc can stand (10_state R26; 40_step_cycle R127): never above 0x10FE, every stack entry in use is an address a
call was fetched from, and a suspended step's pc was fetched from. -/
def State.PcBounded (s : State) : Prop :=
  s.pc.toNat ≤ 0x10FE ∧ (∀ j, j < s.sp.val → (s.entry j).toNat ≤ 0xFFE) ∧ (s.waiting = true → s.pc.toNat ≤ 0xFFE)

/-- The error latch (10_state R39): clear while the core runs; when set it holds the code of a step error and the pc of
the failing instruction, which pc still holds, and no step is suspended. -/
def State.LatchSound (s : State) : Prop :=
  (s.halted = false → s.errCode = 0 ∧ s.errValue = 0 ∧ s.errPc = 0) ∧
  (s.halted = true → s.errCode ∈ ([1, 2, 4, 5, 6, 7] : List (BitVec 4)) ∧ s.errPc = s.pc ∧ s.waiting = false)

/-- A suspended step (40_step_cycle R133; 45_keypad R341): pc holds the address of an Fx0A whose x is in `wait_reg`, and
both per-step outputs are 0. -/
def State.WaitSound (s : State) : Prop :=
  s.waiting = true → s.Fetchable ∧ decode s.opcodeAtPc = .instr (.ldVxK s.waitReg) ∧
    s.redraw = false ∧ s.soundActive = false

/-! ### Sprites -/

/-- Bit `col` of sprite row `row`, the most significant bit being column 0 (44_display R302). -/
def State.spriteBit (s : State) (row col : Nat) : Bool := (s.readByte (s.i.toNat + row)).getLsbD (7 - col)

/-- Some set bit of the `n`-row sprite at I lands on column `px`, row `py` when drawn at (V[x], V[y]) (R304). -/
def State.Covers (s : State) (x y n : Nibble) (px : Fin 64) (py : Fin 32) : Prop :=
  ∃ row col, row < n.toNat ∧ col < 8 ∧ s.spriteBit row col = true ∧
    px.val = ((s.reg x).toNat + col) % 64 ∧ py.val = ((s.reg y).toNat + row) % 32

end Sys2Proof.Machine

namespace Sys2Proof

/-! ### Instructions by what they name -/

/-- The registers an instruction names as its destination or writes as a flag (10_state R21, R23). -/
def Instr.writesRegs : Instr → List Nibble
  | .ldByte x _ | .addByte x _ | .ldReg x _ | .orReg x _ | .andReg x _ | .xorReg x _ => [x]
  | .addReg x _ | .subReg x _ | .shr x _ | .subnReg x _ | .shl x _ => [x, 0xF]
  | .rnd x _ | .ldVxDt x | .ldVxK x => [x]
  | .drw _ _ _ => [0xF]
  | .ldRegs x => (List.range (x.toNat + 1)).map (BitVec.ofNat 4)
  | .cls | .ret | .jp _ | .call _ | .seByte _ _ | .sneByte _ _ | .seReg _ _ | .sneReg _ _ => []
  | .ldI _ | .jpV0 _ | .skp _ | .sknp _ | .ldDtVx _ | .ldStVx _ | .addI _ | .ldF _ | .ldB _ | .stRegs _ => []

/-- The error an instruction can raise in execute, as its code (60_exceptions R379, clause 4). -/
def Instr.executeError : Instr → Option (BitVec 4)
  | .ret => some 5
  | .call _ => some 4
  | .ldF _ => some 2
  | .skp _ | .sknp _ => some 7
  | .drw _ _ _ | .ldB _ | .stRegs _ | .ldRegs _ => some 6
  | .cls | .jp _ | .seByte _ _ | .sneByte _ _ | .seReg _ _ | .ldByte _ _ | .addByte _ _ | .ldReg _ _ => none
  | .orReg _ _ | .andReg _ _ | .xorReg _ _ | .addReg _ _ | .subReg _ _ | .shr _ _ | .subnReg _ _ | .shl _ _ => none
  | .sneReg _ _ | .ldI _ | .jpV0 _ | .rnd _ _ | .ldVxDt _ | .ldVxK _ | .ldDtVx _ | .ldStVx _ | .addI _ => none

end Sys2Proof
end

