-- ==== Sys2Proof/Certificates/Slice0/Obligations.lean ====
section
/-! DEFINITION. The statements for the provers. Each docstring names the rules of spec/ it formalises. Results are
said through reads (`State.reg`, `State.readByte`, `State.entry`, `Framebuffer.pixel`) and natural-number arithmetic, and
each names everything that may change; the terms are in Safety.lean. -/

open Sys2Proof Sys2Proof.Machine

/-! ### Reset, loading, the host's moves -/

/-- R420 (with R22 and R421): `initialize` is admitted whenever no step is in progress and answers without error; it
sets every piece of state to its reset value and leaves the inputs alone. The first one opens the launch sequence (R426);
what a repeated one does to it is `RepeatedInitialiseReopensLaunch`. -/
def Obligations.InitialiseSetsEveryField : Prop :=
  (∀ σ : Session, σ.suspended = false →
    ∃ p, σ.run .initialise = .next ({ core := σ.core.initialise, phase := p }, .none) ∧
      (σ.phase = .unready → p = .fresh)) ∧
  ∀ s t : State, t = s.initialise →
    (∀ r, t.reg r = 0x00) ∧ t.i = 0x0000 ∧ t.pc = 0x0200 ∧ t.sp.val = 0 ∧ (∀ j, j < 16 → t.entry j = 0x0000) ∧
    t.dt = 0x00 ∧ t.st = 0x00 ∧ (∀ x y, t.fb.pixel x y = false) ∧
    (∀ a (h : a < 80), t.readByte a = s.params.font[a]) ∧ (∀ a, 80 ≤ a → a ≤ 0xFFF → t.readByte a = 0x00) ∧
    t.redraw = false ∧ t.soundActive = false ∧ t.waiting = false ∧ t.waitReg = 0 ∧
    t.halted = false ∧ t.errCode = 0 ∧ t.errValue = 0 ∧ t.errPc = 0 ∧
    t.keypad = s.keypad ∧ t.rnd = s.rnd ∧ t.draws = s.draws ∧ t.params = s.params

/-- THE MODEL'S CHOICE (log entry 19), no rule of the spec: an `initialize` starts the launch sequence again whatever came
before it. The phase is fresh, so a load is admitted once more, and a step too, which lifts the ban after a failed load. -/
def Obligations.RepeatedInitialiseReopensLaunch : Prop :=
  ∀ σ : Session, σ.suspended = false → ∃ τ, σ.run .initialise = .next (τ, .none) ∧ τ.phase = .fresh ∧
    (∀ img, ∃ υ, τ.run (.loadProgram img) = .next (υ, .load (τ.core.loadProgram img).1)) ∧
    ∃ υ r, τ.run .step = .next (υ, .step r)

/-- The state the model starts from is the one `initialize` leaves, with no key pressed (R47 for the keypad at launch;
the empty `rnd` and the parameters' defaults are the model's, log entries 2, 3 and 4, and are not stated). -/
def Obligations.ResetIsInitialisedState : Prop :=
  State.reset.initialise = State.reset ∧ State.reset.keypad = 0 ∧ State.reset.Ready ∧ State.reset.Fetchable

/-- R423, R425: `loadProgram` refuses an image over 3584 bytes and writes nothing; any other it copies to 0x200 on and
writes no other byte and no other state. -/
def Obligations.LoadProgramCopiesImage : Prop :=
  ∀ (s : State) (img : List Byte),
    (3584 < img.length →
      s.loadProgram img = (.oversizedProgram (BitVec.ofNat 16 (min img.length 0xFFFF)), s)) ∧
    (img.length ≤ 3584 → ∃ t, s.loadProgram img = (.ok, t) ∧
      (∀ k (h : k < img.length), t.readByte (0x200 + k) = img[k]) ∧
      (∀ a, ¬ (0x200 ≤ a ∧ a < 0x200 + img.length) → t.readByte a = s.readByte a) ∧
      { t with mem := s.mem } = s)

/-- R424: 3584 bytes load and reach 0xFFF, 3585 fail, an empty image changes nothing and the first step then raises
`UnknownOpcode(0x0000)`. -/
def Obligations.LoadBoundaryAndEmptyImage : Prop :=
  ∀ s : State,
    (∀ img : List Byte, img.length = 3584 → (s.loadProgram img).1 = .ok ∧
      ∀ h : 3583 < img.length, (s.loadProgram img).2.readByte 0xFFF = img[3583]) ∧
    (∀ img : List Byte, 3585 ≤ img.length → ∃ n, (s.loadProgram img).1 = .oversizedProgram n) ∧
    s.loadProgram [] = (.ok, s) ∧
    step (s.initialise.loadProgram []).2 = .next (s.initialise.latched 1 0x0000)

/-- R72 with 93 U16 to U19: the moves the host table forbids are refused by name, for every session they apply to. -/
def Obligations.HostOrderRefused : Prop :=
  ∀ (σ : Session) (img : List Byte),
    (σ.phase = .unready → σ.run .step = .refused .beforeFirstReset ∧
      σ.run (.loadProgram img) = .refused .beforeFirstReset ∧ σ.run .sample = .refused .beforeFirstReset) ∧
    (σ.phase = .loadFailed → σ.run .step = .refused .stepAfterFailedLoad) ∧
    (σ.phase = .loaded ∨ σ.phase = .loadFailed ∨ σ.phase = .stepped → σ.core.waiting = false →
      σ.run (.loadProgram img) = .refused .loadOutOfOrder) ∧
    (σ.phase = .fresh ∨ σ.phase = .loaded ∨ σ.phase = .stepped → σ.core.waiting = true →
      σ.run .initialise = .refused .commandWhileWaiting ∧ σ.run .step = .refused .commandWhileWaiting ∧
      σ.run (.loadProgram img) = .refused .commandWhileWaiting)

/-- R39, R381: once a core has stepped and is halted, no move but `initialize` changes anything in it except the
inputs the host drives. -/
def Obligations.OnlyInitialiseClearsTheLatch : Prop :=
  ∀ (σ σ' : Session) (m : Move) (r : Reply), σ.phase = .stepped → σ.core.halted = true → m ≠ .initialise →
    σ.run m = .next (σ', r) → { σ'.core with keypad := σ.core.keypad, rnd := σ.core.rnd } = σ.core

/-! ### Encoding -/

/-- Decode and encode agree (30_encoding R90 to R101): every instruction, with every operand at every value, decodes
back from its opcode and from that opcode's bytes as memory holds them. -/
def Obligations.DecodeEncodeRoundTrip : Prop :=
  ∀ i : Instr, decode (encode i) = .instr i ∧ decodeBytes (opcodeBytes (encode i)) = .instr i

/-- R102 with R104: a word that a row of the opcode map selects decodes to an instruction of exactly that encoding and
of a row that selects it; every other word is an unknown opcode carrying itself. -/
def Obligations.DecodeAgreesWithOpcodeMap : Prop :=
  ∀ op : Word,
    (Opcode.legal op = true → ∃ i, decode op = .instr i ∧ encode i = op ∧ i.row.selects op = true) ∧
    (Opcode.legal op = false → decode op = .unknownOpcode op)

/-- R104: at most one row of the opcode map matches each opcode. -/
def Obligations.OpcodeRowsDisjoint : Prop :=
  ∀ (op : Word) (r q : OpcodeRow), r ∈ opcodeMap → q ∈ opcodeMap → r.selects op = true → q.selects op = true → r = q

/-- Seven words written out from the formats of R92 and the map of R104, at least one of each format, decode to what they
stand for, and 0x5001 to an unknown opcode (R96). -/
def Obligations.SpecWordsDecode : Prop :=
  decode 0x00E0 = .instr .cls ∧ decode 0x00EE = .instr .ret ∧ decode 0x2ABC = .instr (.call 0xABC) ∧
  decode 0x3A7B = .instr (.seByte 0xA 0x7B) ∧ decode 0x81F6 = .instr (.shr 0x1 0xF) ∧
  decode 0xD125 = .instr (.drw 0x1 0x2 0x5) ∧ decode 0xFA33 = .instr (.ldB 0xA) ∧ decode 0x5001 = .unknownOpcode 0x5001

/-! ### The step cycle -/

/-- R120, R122, R124: a step that fetches an opcode decoding to `i` is `exec i` on the state with both per-step outputs
cleared, followed by stage 5, which an error or a suspension skips (R128, R133). -/
def Obligations.StepRunsDecodedInstruction : Prop :=
  ∀ (s : State) (i : Instr), s.Ready → s.Fetchable → decode s.opcodeAtPc = .instr i →
    step s = match exec i s.cleared with
      | .next t => .next (if t.halted = true ∨ t.waiting = true then t else
          { t with dt := if t.dt = 0 then 0 else t.dt - 1, st := if t.st = 0 then 0 else t.st - 1,
                   soundActive := decide (t.st ≠ 0) })
      | .fault r => .fault r
      | .refused r => .refused r

/-- R121: the fetch delivers the two bytes at pc, which decode with the first in bits 15..8, or the step raises
`AddressFault` with the lowest address outside memory and leaves everything else, the outputs too, as it was. -/
def Obligations.FetchReadsOrFaults : Prop :=
  ∀ s : State, s.Ready →
    (s.pc.toNat + 1 ≤ 0xFFF → s.fetch = .ok [s.readByte s.pc.toNat, s.readByte (s.pc.toNat + 1)] ∧
      decodeBytes [s.readByte s.pc.toNat, s.readByte (s.pc.toNat + 1)] = decode s.opcodeAtPc) ∧
    (0xFFF < s.pc.toNat + 1 → step s = .next (s.latched 6 (if 0xFFF < s.pc.toNat then s.pc else 0x1000)))

/-- R123, R372: an opcode no row selects raises `UnknownOpcode` with the full opcode, the outputs being cleared. -/
def Obligations.UnknownOpcodeLatches : Prop :=
  ∀ s : State, s.Ready → s.Fetchable → Opcode.legal s.opcodeAtPc = false →
    step s = .next (s.cleared.latched 1 s.opcodeAtPc)

/-- R134: a step of a halted core does nothing and completes with `Halted`. -/
def Obligations.HaltedStepDoesNothing : Prop :=
  ∀ s : State, s.halted = true → step s = .next s ∧ stepResult s s = .halted

/-- R342, with R341 and R343: a suspended step completes at the first sampling that finds a key, with the lowest pressed
key, and counts the timers down. (That a sampling without a key is a step that changes nothing is the model's, log
entry 8.) -/
def Obligations.WaitingStepSamplesKeypad : Prop :=
  ∀ (s : State), s.halted = false → s.waiting = true →
    ((∀ k, k < 16 → s.keypad.getLsbD k = false) → step s = .next s) ∧
    (∀ k, k < 16 → s.keypad.getLsbD k = true → (∀ j, j < k → s.keypad.getLsbD j = false) →
      ∃ t, step s = .next t ∧ (t.reg s.waitReg).toNat = k ∧ t.waiting = false ∧ t.pc = s.pc + 2 ∧
        t.dt.toNat = s.dt.toNat - 1 ∧ t.st.toNat = s.st.toNat - 1 ∧ t.soundActive = decide (s.st ≠ 0) ∧
        s.KeepsRegs t [s.waitReg] ∧ s.KeepsMemory t ∧
        { t with v := s.v, pc := s.pc, waiting := true, dt := s.dt, st := s.st, soundActive := s.soundActive } = s)

/-- R129, R130 and R132: a step that completes counts each timer down from the value its instruction left (Fx15 and Fx18
write one, every other instruction leaves them; a suspended step has written none), 0 stays 0. With R131 for such a step:
`sound_active` is 1 exactly when ST counted down. -/
def Obligations.TimersCountDownEachStep : Prop :=
  ∀ s t : State, s.halted = false → step s = .next t → t.halted = false → t.waiting = false →
    (s.waiting = true → t.dt.toNat = s.dt.toNat - 1 ∧ t.st.toNat = s.st.toNat - 1 ∧
      t.soundActive = decide (s.st ≠ 0)) ∧
    (∀ i, s.waiting = false → decode s.opcodeAtPc = .instr i →
      t.dt.toNat = (s.dtLeftBy i).toNat - 1 ∧ t.st.toNat = (s.stLeftBy i).toNat - 1 ∧
      t.soundActive = decide (s.stLeftBy i ≠ 0))

/-- Nothing stops the machine: from every state the step answers a next state (derived from R120, R134, R341 and R370;
the reading of errors as next states is log entry 6, of a sampling without a key log entry 8). -/
def Obligations.EveryStepAnswersANextState : Prop :=
  ∀ s : State, ∃ t, step s = .next t

/-- R380 with R370 and R128: an error is precise. When a step of a core that is not halted ends halted, the state is the
state before it but for the latch and the two per-step outputs, and `err_pc` is the failing instruction's address. -/
def Obligations.ErrorsArePrecise : Prop :=
  ∀ s t : State, s.halted = false → step s = .next t → t.halted = true →
    t.errPc = s.pc ∧ s.KeepsMemory t ∧
    { t with redraw := s.redraw, soundActive := s.soundActive, halted := s.halted, errCode := s.errCode,
             errValue := s.errValue, errPc := s.errPc } = s

/-- R124 with R379 clause 4: in execute an instruction can raise only the one error its rule names, and most none. -/
def Obligations.ExecuteRaisesOnlyItsError : Prop :=
  ∀ (i : Instr) (s t : State), s.halted = false → exec i s = .next t → t.halted = true →
    i.executeError = some t.errCode ∧ t = s.latched t.errCode t.errValue

/-- R136: no step writes the keypad, and the parameters never change. -/
def Obligations.StepNeverWritesKeypad : Prop :=
  ∀ s t : State, step s = .next t → t.keypad = s.keypad ∧ t.params = s.params

/-- The instruction that `withFetchWord` places is the one the next step fetches, for every state and word. -/
def Obligations.PlacedWordIsFetched : Prop :=
  ∀ (s : State) (w : Nat), w < 65536 →
    (s.withFetchWord 16 w).Ready ∧ (s.withFetchWord 16 w).Fetchable ∧
    (s.withFetchWord 16 w).opcodeAtPc = BitVec.ofNat 16 w

/-! ### Memory -/

/-- R73 for one byte: a read gives the byte last written there, and a write leaves every other byte. -/
def Obligations.ReadGivesLastWrite : Prop :=
  ∀ (s : State) (a c : Nat) (b : Byte), a ≤ 0xFFF →
    (s.writeByte a b).readByte c = if c = a then b else s.readByte c

/-- R66: of the instructions only Fx33 and Fx55 write memory. -/
def Obligations.OnlyBcdAndStoreWriteMemory : Prop :=
  ∀ (i : Instr) (s t : State), exec i s = .next t → (∀ x, i ≠ .ldB x) → (∀ x, i ≠ .stRegs x) →
    t.mem = s.mem ∧ s.KeepsMemory t

/-- R29 and R35 (also R300): only 2nnn and 00EE touch the call stack, and only 00E0 and Dxyn write the framebuffer or the
redraw flag. -/
def Obligations.StackAndFramebufferWriters : Prop :=
  ∀ (i : Instr) (s t : State), exec i s = .next t →
    ((∀ nnn, i ≠ .call nnn) → i ≠ .ret → t.stack = s.stack ∧ t.sp = s.sp) ∧
    (i ≠ .cls → (∀ x y n, i ≠ .drw x y n) → t.fb = s.fb ∧ t.redraw = s.redraw)

/-- R23 (also R21): an instruction writes no general register but its destination and, for the six named there, VF. -/
def Obligations.RegisterWritersNamed : Prop :=
  ∀ (i : Instr) (s t : State), exec i s = .next t → ∀ r, r ∉ i.writesRegs → t.reg r = s.reg r

/-! ### Control flow -/

/-- R151: the return pops the calling 2nnn's address and goes on after it; an empty stack raises
`StackUnderflow(0x00EE)`. -/
def Obligations.ReturnPopsCallAddress : Prop :=
  encode .ret = 0x00EE ∧ ∀ s : State,
    (0 < s.sp.val → ∃ t, exec .ret s = .next t ∧ t.sp.val = s.sp.val - 1 ∧ t.pc = s.entry (s.sp.val - 1) + 2 ∧
      s.KeepsRegs t [] ∧ s.KeepsMemory t ∧ { t with sp := s.sp, pc := s.pc } = s) ∧
    (s.sp.val = 0 → exec .ret s = .next (s.latched 5 0x00EE))

/-- R152: the jump. -/
def Obligations.JumpSetsPc : Prop :=
  ∀ (s : State) (nnn : Addr), encode (.jp nnn) &&& 0xF000 = 0x1000 ∧ ∃ t, exec (.jp nnn) s = .next t ∧
    t.pc.toNat = nnn.toNat ∧ s.OnlyRegsAndPc t []

/-- R153: the call pushes its own address; a full stack raises `StackOverflow` with the opcode. -/
def Obligations.CallPushesItsAddress : Prop :=
  ∀ (s : State) (nnn : Addr), encode (.call nnn) &&& 0xF000 = 0x2000 ∧
    (s.sp.val < 16 → ∃ t, exec (.call nnn) s = .next t ∧ t.entry s.sp.val = s.pc ∧ t.sp.val = s.sp.val + 1 ∧
      t.pc.toNat = nnn.toNat ∧ (∀ j, j ≠ s.sp.val → t.entry j = s.entry j) ∧ s.KeepsRegs t [] ∧ s.KeepsMemory t ∧
      { t with stack := s.stack, sp := s.sp, pc := s.pc } = s) ∧
    (s.sp.val = 16 → exec (.call nnn) s = .next (s.latched 4 (encode (.call nnn))))

/-- R153 then R151 (R126): a call and the matching return come back to the instruction after the call with the stack
pointer restored and no other entry touched. -/
def Obligations.CallThenReturnResumes : Prop :=
  ∀ (s t : State) (nnn : Addr), s.sp.val < 16 → exec (.call nnn) s = .next t →
    ∃ u, exec .ret t = .next u ∧ u.pc = s.pc + 2 ∧ u.sp = s.sp ∧ (∀ j, j < s.sp.val → u.entry j = s.entry j) ∧
      { u with stack := s.stack, pc := s.pc } = s

/-- R154 to R157: the four register skips advance pc by 4 when their condition holds and by 2 otherwise, and change
nothing else. -/
def Obligations.RegisterSkips : Prop :=
  ∀ (s : State) (x y : Nibble) (kk : Byte),
    (encode (.seByte x kk) &&& 0xF000 = 0x3000 ∧ ∃ t, exec (.seByte x kk) s = .next t ∧
      t.pc = s.pc + (if s.reg x = kk then 4 else 2) ∧ s.OnlyRegsAndPc t []) ∧
    (encode (.sneByte x kk) &&& 0xF000 = 0x4000 ∧ ∃ t, exec (.sneByte x kk) s = .next t ∧
      t.pc = s.pc + (if s.reg x ≠ kk then 4 else 2) ∧ s.OnlyRegsAndPc t []) ∧
    (encode (.seReg x y) &&& 0xF00F = 0x5000 ∧ ∃ t, exec (.seReg x y) s = .next t ∧
      t.pc = s.pc + (if s.reg x = s.reg y then 4 else 2) ∧ s.OnlyRegsAndPc t []) ∧
    (encode (.sneReg x y) &&& 0xF00F = 0x9000 ∧ ∃ t, exec (.sneReg x y) s = .next t ∧
      t.pc = s.pc + (if s.reg x ≠ s.reg y then 4 else 2) ∧ s.OnlyRegsAndPc t [])

/-- R158: the sum of nnn and V0 is not reduced to 12 bits and does not wrap. -/
def Obligations.JumpOffsetAddsV0 : Prop :=
  ∀ (s : State) (nnn : Addr), encode (.jpV0 nnn) &&& 0xF000 = 0xB000 ∧ ∃ t, exec (.jpV0 nnn) s = .next t ∧
    t.pc.toNat = nnn.toNat + (s.reg 0).toNat ∧
    s.OnlyRegsAndPc t []

/-! ### Register loads and ALU -/

/-- R201, R203 to R206: the loads and the bitwise operations write V[x] only; VF changes only when x = 0xF. -/
def Obligations.LoadsAndBitwise : Prop :=
  ∀ (s : State) (x y : Nibble) (kk : Byte),
    (encode (.ldByte x kk) &&& 0xF000 = 0x6000 ∧ ∃ t, exec (.ldByte x kk) s = .next t ∧
      t.reg x = kk ∧ t.pc = s.pc + 2 ∧ s.OnlyRegsAndPc t [x]) ∧
    (encode (.ldReg x y) &&& 0xF00F = 0x8000 ∧ ∃ t, exec (.ldReg x y) s = .next t ∧
      t.reg x = s.reg y ∧ t.pc = s.pc + 2 ∧ s.OnlyRegsAndPc t [x]) ∧
    (encode (.orReg x y) &&& 0xF00F = 0x8001 ∧ ∃ t, exec (.orReg x y) s = .next t ∧
      t.reg x = s.reg x ||| s.reg y ∧ t.pc = s.pc + 2 ∧ s.OnlyRegsAndPc t [x]) ∧
    (encode (.andReg x y) &&& 0xF00F = 0x8002 ∧ ∃ t, exec (.andReg x y) s = .next t ∧
      t.reg x = s.reg x &&& s.reg y ∧ t.pc = s.pc + 2 ∧ s.OnlyRegsAndPc t [x]) ∧
    (encode (.xorReg x y) &&& 0xF00F = 0x8003 ∧ ∃ t, exec (.xorReg x y) s = .next t ∧
      t.reg x = s.reg x ^^^ s.reg y ∧ t.pc = s.pc + 2 ∧ s.OnlyRegsAndPc t [x])

/-- R202: the immediate sum wraps modulo 256 and sets no flag. -/
def Obligations.AddByteWraps : Prop :=
  ∀ (s : State) (x : Nibble) (kk : Byte), encode (.addByte x kk) &&& 0xF000 = 0x7000 ∧
    ∃ t, exec (.addByte x kk) s = .next t ∧
    (t.reg x).toNat = ((s.reg x).toNat + kk.toNat) % 256 ∧ t.pc = s.pc + 2 ∧ s.OnlyRegsAndPc t [x]

/-- R207: the sum wraps, VF is the carry and is written last, so VF ends as the carry when x = 0xF. -/
def Obligations.AddRegistersWithCarry : Prop :=
  ∀ (s : State) (x y : Nibble), encode (.addReg x y) &&& 0xF00F = 0x8004 ∧ ∃ t, exec (.addReg x y) s = .next t ∧
    (x ≠ 0xF → (t.reg x).toNat = ((s.reg x).toNat + (s.reg y).toNat) % 256) ∧
    t.reg 0xF = bit01 (255 < (s.reg x).toNat + (s.reg y).toNat) ∧
    t.pc = s.pc + 2 ∧ s.OnlyRegsAndPc t [x, 0xF]

/-- R208 and R210: both subtractions wrap, and VF, written last, is 1 exactly when there is no borrow. -/
def Obligations.SubtractionsWithNotBorrow : Prop :=
  ∀ (s : State) (x y : Nibble),
    (encode (.subReg x y) &&& 0xF00F = 0x8005 ∧ ∃ t, exec (.subReg x y) s = .next t ∧
      (x ≠ 0xF → (t.reg x).toNat = ((s.reg x).toNat + 256 - (s.reg y).toNat) % 256) ∧
      t.reg 0xF = bit01 ((s.reg y).toNat ≤ (s.reg x).toNat) ∧ t.pc = s.pc + 2 ∧ s.OnlyRegsAndPc t [x, 0xF]) ∧
    (encode (.subnReg x y) &&& 0xF00F = 0x8007 ∧ ∃ t, exec (.subnReg x y) s = .next t ∧
      (x ≠ 0xF → (t.reg x).toNat = ((s.reg y).toNat + 256 - (s.reg x).toNat) % 256) ∧
      t.reg 0xF = bit01 ((s.reg x).toNat ≤ (s.reg y).toNat) ∧ t.pc = s.pc + 2 ∧ s.OnlyRegsAndPc t [x, 0xF])

/-- R209 and R211 under both values of VF_ORDER, with R101 (y is ignored): the shifts move V[x] by one and VF takes the bit
shifted out; for x = 0xF the order decides what VF ends as (R212). -/
def Obligations.ShiftsUnderBothOrders : Prop :=
  ∀ (s : State) (x y : Nibble),
    (encode (.shr x y) &&& 0xF00F = 0x8006 ∧
      ∃ t, exec (.shr x y) s = .next t ∧ t.pc = s.pc + 2 ∧ s.OnlyRegsAndPc t [x, 0xF] ∧
      (x ≠ 0xF → (t.reg x).toNat = (s.reg x).toNat / 2 ∧ (t.reg 0xF).toNat = (s.reg x).toNat % 2) ∧
      (x = 0xF → s.params.vfOrder = .seqListed → t.reg 0xF = 0) ∧
      (x = 0xF → s.params.vfOrder = .flagLast → (t.reg 0xF).toNat = (s.reg x).toNat % 2)) ∧
    (encode (.shl x y) &&& 0xF00F = 0x800E ∧
      ∃ t, exec (.shl x y) s = .next t ∧ t.pc = s.pc + 2 ∧ s.OnlyRegsAndPc t [x, 0xF] ∧
      (x ≠ 0xF → (t.reg x).toNat = (2 * (s.reg x).toNat) % 256 ∧ (t.reg 0xF).toNat = (s.reg x).toNat / 128) ∧
      (x = 0xF → s.params.vfOrder = .seqListed → (t.reg 0xF).toNat = 2 * ((s.reg x).toNat / 128)) ∧
      (x = 0xF → s.params.vfOrder = .flagLast → (t.reg 0xF).toNat = (s.reg x).toNat / 128))

/-- R101: every value of y gives the same shift. -/
def Obligations.ShiftsIgnoreY : Prop :=
  ∀ (s : State) (x y z : Nibble), exec (.shr x y) s = exec (.shr x z) s ∧ exec (.shl x y) s = exec (.shl x z) s

/-- Cxkk (42_register_alu, Cxkk): V[x] is the drawn byte masked with kk, and the draw takes the next byte of the input.
How the input stands in the state is the model's (log entry 4); past the bytes the state gives, the drawn byte is the
free value of this draw, of which nothing is known. -/
def Obligations.RandomByteMasked : Prop :=
  ∀ (s : State) (x : Nibble) (kk : Byte), encode (.rnd x kk) &&& 0xF000 = 0xC000 ∧
    ∃ t r, exec (.rnd x kk) s = .next t ∧ t.reg x = r &&& kk ∧
    (∀ b bs, s.rnd = b :: bs → r = b ∧ t.rnd = bs) ∧ (s.rnd = [] → r = Config.freeRnd s.draws ∧ t.rnd = []) ∧
    t.draws = s.draws + 1 ∧ t.pc = s.pc + 2 ∧ s.KeepsRegs t [x] ∧ s.KeepsMemory t ∧
    { t with v := s.v, pc := s.pc, rnd := s.rnd, draws := s.draws } = s

/-! ### Index register and memory instructions -/

/-- R251 and R252: the index load, and the index sum modulo 2^16 with no flag. -/
def Obligations.IndexLoadAndAdd : Prop :=
  ∀ (s : State) (x : Nibble) (nnn : Addr),
    (encode (.ldI nnn) &&& 0xF000 = 0xA000 ∧
      ∃ t, exec (.ldI nnn) s = .next t ∧ t.i.toNat = nnn.toNat ∧ t.pc = s.pc + 2 ∧ s.KeepsRegs t [] ∧
      s.KeepsMemory t ∧ { t with i := s.i, pc := s.pc } = s) ∧
    (encode (.addI x) &&& 0xF0FF = 0xF01E ∧
      ∃ t, exec (.addI x) s = .next t ∧ t.i.toNat = (s.i.toNat + (s.reg x).toNat) % 65536 ∧ t.pc = s.pc + 2 ∧
      s.KeepsRegs t [] ∧ s.KeepsMemory t ∧ { t with i := s.i, pc := s.pc } = s)

/-- R253: I points at the digit's glyph, or a value above 0xF raises `InvalidDigit` with it. -/
def Obligations.GlyphAddressOrInvalidDigit : Prop :=
  ∀ (s : State) (x : Nibble), encode (.ldF x) &&& 0xF0FF = 0xF029 ∧
    ((s.reg x).toNat ≤ 0xF → ∃ t, exec (.ldF x) s = .next t ∧ t.i.toNat = (s.reg x).toNat * 5 ∧ t.pc = s.pc + 2 ∧
      s.KeepsRegs t [] ∧ s.KeepsMemory t ∧ { t with i := s.i, pc := s.pc } = s) ∧
    (0xF < (s.reg x).toNat → exec (.ldF x) s = .next (s.latched 2 (BitVec.ofNat 16 (s.reg x).toNat)))

/-- R254: the three decimal digits at I, I+1 and I+2 and no other byte, or `AddressFault` and nothing written. -/
def Obligations.BcdStoresDigits : Prop :=
  ∀ (s : State) (x : Nibble), encode (.ldB x) &&& 0xF0FF = 0xF033 ∧
    (s.i.toNat + 2 ≤ 0xFFF → ∃ t, exec (.ldB x) s = .next t ∧
      (t.readByte s.i.toNat).toNat = (s.reg x).toNat / 100 ∧
      (t.readByte (s.i.toNat + 1)).toNat = (s.reg x).toNat / 10 % 10 ∧
      (t.readByte (s.i.toNat + 2)).toNat = (s.reg x).toNat % 10 ∧
      t.pc = s.pc + 2 ∧ s.KeepsRegs t [] ∧ s.OnlyBytesAndPc t s.i.toNat 3) ∧
    (0xFFF < s.i.toNat + 2 → exec (.ldB x) s = .next (s.latched 6 (BitVec.ofNat 16 (max s.i.toNat 0x1000))))

/-- R255: V0..Vx at I .. I+x and no other byte, I unchanged, or `AddressFault` and nothing written. -/
def Obligations.StoreRegistersToMemory : Prop :=
  ∀ (s : State) (x : Nibble), encode (.stRegs x) &&& 0xF0FF = 0xF055 ∧
    (s.i.toNat + x.toNat ≤ 0xFFF → ∃ t, exec (.stRegs x) s = .next t ∧
      (∀ k, k ≤ x.toNat → t.readByte (s.i.toNat + k) = s.reg (BitVec.ofNat 4 k)) ∧
      t.pc = s.pc + 2 ∧ s.KeepsRegs t [] ∧ s.OnlyBytesAndPc t s.i.toNat (x.toNat + 1)) ∧
    (0xFFF < s.i.toNat + x.toNat →
      exec (.stRegs x) s = .next (s.latched 6 (BitVec.ofNat 16 (max s.i.toNat 0x1000))))

/-- R256: V0..Vx from I .. I+x, the registers above x and I unchanged, or `AddressFault` and nothing written. -/
def Obligations.LoadRegistersFromMemory : Prop :=
  ∀ (s : State) (x : Nibble), encode (.ldRegs x) &&& 0xF0FF = 0xF065 ∧
    (s.i.toNat + x.toNat ≤ 0xFFF → ∃ t, exec (.ldRegs x) s = .next t ∧
      (∀ k, k ≤ x.toNat → t.reg (BitVec.ofNat 4 k) = s.readByte (s.i.toNat + k)) ∧
      (∀ r : Nibble, x.toNat < r.toNat → t.reg r = s.reg r) ∧
      t.pc = s.pc + 2 ∧ s.KeepsMemory t ∧ { t with v := s.v, pc := s.pc } = s) ∧
    (0xFFF < s.i.toNat + x.toNat →
      exec (.ldRegs x) s = .next (s.latched 6 (BitVec.ofNat 16 (max s.i.toNat 0x1000))))

/-- R255 then R256: registers stored and loaded back through the same I come back, whatever they held in between. -/
def Obligations.StoreThenLoadRestoresRegisters : Prop :=
  ∀ (s t u : State) (x : Nibble) (v' : Vector Byte 16), s.i.toNat + x.toNat ≤ 0xFFF →
    exec (.stRegs x) s = .next t → exec (.ldRegs x) { t with v := v' } = .next u →
    ∀ r : Nibble, r.toNat ≤ x.toNat → u.reg r = s.reg r

/-! ### Display -/

/-- R301: every pixel off and the redraw flag set; VF unchanged. -/
def Obligations.ClearDisplay : Prop :=
  encode .cls = 0x00E0 ∧ ∀ s : State, ∃ t, exec .cls s = .next t ∧ (∀ x y, t.fb.pixel x y = false) ∧
    t.redraw = true ∧ t.pc = s.pc + 2 ∧ s.KeepsRegs t [] ∧ s.KeepsMemory t ∧
    { t with fb := s.fb, redraw := s.redraw, pc := s.pc } = s

/-- R302 and R303: a pixel is turned over exactly when a set bit of the sprite lands on it, wrapped at the edges;
VF is 1 exactly when one of those pixels was lit; a sprite that reaches past 0xFFF raises `AddressFault` and draws
nothing. -/
def Obligations.DrawTogglesCoveredPixels : Prop :=
  ∀ (s : State) (x y n : Nibble), encode (.drw x y n) &&& 0xF000 = 0xD000 ∧
    (n = 0 ∨ s.i.toNat + n.toNat - 1 ≤ 0xFFF → ∃ t, exec (.drw x y n) s = .next t ∧
      (∀ px py, (s.Covers x y n px py → t.fb.pixel px py = !s.fb.pixel px py) ∧
        (¬ s.Covers x y n px py → t.fb.pixel px py = s.fb.pixel px py)) ∧
      ((∃ px py, s.Covers x y n px py ∧ s.fb.pixel px py = true) → t.reg 0xF = 1) ∧
      ((∀ px py, s.Covers x y n px py → s.fb.pixel px py = false) → t.reg 0xF = 0) ∧
      t.redraw = true ∧ t.pc = s.pc + 2 ∧ s.KeepsRegs t [0xF] ∧ s.KeepsMemory t ∧
      { t with v := s.v, fb := s.fb, redraw := s.redraw, pc := s.pc } = s) ∧
    (n ≠ 0 → 0xFFF < s.i.toNat + n.toNat - 1 →
      exec (.drw x y n) s = .next (s.latched 6 (BitVec.ofNat 16 (max s.i.toNat 0x1000))))

/-- From R302 (the part of R304's third fact that follows from it): the same sprite drawn twice at the same place restores
every pixel, and the second draw sets VF to 1 exactly when some pixel a set bit lands on was off before the first. (R304 says
"when the sprite has at least one set bit"; that holds where those pixels were off, log entry 16.) -/
def Obligations.DrawTwiceRestores : Prop :=
  ∀ (s t u : State) (x y n : Nibble), x ≠ 0xF → y ≠ 0xF → (n = 0 ∨ s.i.toNat + n.toNat - 1 ≤ 0xFFF) →
    exec (.drw x y n) s = .next t → exec (.drw x y n) t = .next u →
    u.fb = s.fb ∧
    ((∃ px py, s.Covers x y n px py ∧ s.fb.pixel px py = false) → u.reg 0xF = 1) ∧
    ((∀ px py, s.Covers x y n px py → s.fb.pixel px py = true) → u.reg 0xF = 0)

/-! ### Keypad and timers -/

/-- R331 and R332 (R330): the key skips read the key V[x] names, or a value above 0xF raises `KeyIndexFault` with it. -/
def Obligations.KeySkips : Prop :=
  ∀ (s : State) (x : Nibble), encode (.skp x) &&& 0xF0FF = 0xE09E ∧ encode (.sknp x) &&& 0xF0FF = 0xE0A1 ∧
    ((s.reg x).toNat ≤ 0xF →
      (∃ t, exec (.skp x) s = .next t ∧
        t.pc = s.pc + (if s.keypad.getLsbD (s.reg x).toNat = true then 4 else 2) ∧ s.OnlyRegsAndPc t []) ∧
      (∃ t, exec (.sknp x) s = .next t ∧
        t.pc = s.pc + (if s.keypad.getLsbD (s.reg x).toNat = false then 4 else 2) ∧ s.OnlyRegsAndPc t [])) ∧
    (0xF < (s.reg x).toNat →
      exec (.skp x) s = .next (s.latched 7 (BitVec.ofNat 16 (s.reg x).toNat)) ∧
      exec (.sknp x) s = .next (s.latched 7 (BitVec.ofNat 16 (s.reg x).toNat)))

/-- R340: with a key pressed Fx0A takes the lowest one and goes on; with none it suspends the step, with pc and every
other register as they were. -/
def Obligations.WaitForKeyEntry : Prop :=
  ∀ (s : State) (x : Nibble), encode (.ldVxK x) &&& 0xF0FF = 0xF00A ∧
    (∀ k, k < 16 → s.keypad.getLsbD k = true → (∀ j, j < k → s.keypad.getLsbD j = false) →
      ∃ t, exec (.ldVxK x) s = .next t ∧ (t.reg x).toNat = k ∧ t.pc = s.pc + 2 ∧ s.OnlyRegsAndPc t [x]) ∧
    ((∀ k, k < 16 → s.keypad.getLsbD k = false) →
      exec (.ldVxK x) s = .next { s with waiting := true, waitReg := x })

/-- R333: Fx07 reads DT as it was before this step's countdown, which then runs. -/
def Obligations.ReadDelayTimer : Prop :=
  ∀ (s : State) (x : Nibble), encode (.ldVxDt x) &&& 0xF0FF = 0xF007 ∧
    (∃ t, exec (.ldVxDt x) s = .next t ∧ t.reg x = s.dt ∧ t.pc = s.pc + 2 ∧ s.OnlyRegsAndPc t [x]) ∧
    (s.Ready → s.Fetchable → decode s.opcodeAtPc = .instr (.ldVxDt x) →
      ∃ t, step s = .next t ∧ t.reg x = s.dt ∧ t.dt.toNat = s.dt.toNat - 1)

/-- R350: Fx15 writes DT, and the countdown at the end of the same step applies. -/
def Obligations.WriteDelayTimer : Prop :=
  ∀ (s : State) (x : Nibble), encode (.ldDtVx x) &&& 0xF0FF = 0xF015 ∧
    (∃ t, exec (.ldDtVx x) s = .next t ∧ t.dt = s.reg x ∧ t.pc = s.pc + 2 ∧ s.KeepsRegs t [] ∧ s.KeepsMemory t ∧
      { t with dt := s.dt, pc := s.pc } = s) ∧
    (s.Ready → s.Fetchable → decode s.opcodeAtPc = .instr (.ldDtVx x) →
      ∃ t, step s = .next t ∧ t.dt.toNat = (s.reg x).toNat - 1)

/-- R351: Fx18 writes ST; the countdown at the end of the same step applies and signals sound even for 1. -/
def Obligations.WriteSoundTimer : Prop :=
  ∀ (s : State) (x : Nibble), encode (.ldStVx x) &&& 0xF0FF = 0xF018 ∧
    (∃ t, exec (.ldStVx x) s = .next t ∧ t.st = s.reg x ∧ t.pc = s.pc + 2 ∧ s.KeepsRegs t [] ∧ s.KeepsMemory t ∧
      { t with st := s.st, pc := s.pc } = s) ∧
    (s.Ready → s.Fetchable → decode s.opcodeAtPc = .instr (.ldStVx x) →
      ∃ t, step s = .next t ∧ t.st.toNat = (s.reg x).toNat - 1 ∧ t.soundActive = decide (s.reg x ≠ 0))

/-! ### Invariants of every step -/

/-- Every step keeps memory in its canonical form (the form is the model's own, log entry 1). -/
def Obligations.StepKeepsMemoryCanonical : Prop :=
  ∀ s t : State, s.MemoryCanonical → step s = .next t → t.MemoryCanonical

/-- R26 and R127 as an invariant: pc never passes 0x10FE, so no update of pc wraps. -/
def Obligations.StepKeepsPcBounded : Prop :=
  ∀ s t : State, s.PcBounded → step s = .next t → t.PcBounded

/-- R39 as an invariant: the latch is clear while the core runs and, once set, holds a step error's code and the failing
pc. -/
def Obligations.StepKeepsLatchSound : Prop :=
  ∀ s t : State, s.LatchSound → step s = .next t → t.LatchSound

/-- R133 and R341 as an invariant: a suspended step's pc holds the address of the Fx0A that `wait_reg` belongs to. -/
def Obligations.StepKeepsWaitSound : Prop :=
  ∀ s t : State, s.WaitSound → step s = .next t → t.WaitSound

/-- The four invariants hold after reset. -/
def Obligations.ResetMeetsInvariants : Prop :=
  State.reset.MemoryCanonical ∧ State.reset.PcBounded ∧ State.reset.LatchSound ∧ State.reset.WaitSound
end

