-- ==== Sys2Proof/Laws/State.lean ====
section
/-! SUPPORT. What each state update does to each field, so that no proof unfolds a record update. -/

namespace Sys2Proof.Machine

variable (s : State)

/-! ### State.setReg -/

@[simp] theorem State.setReg_v (x : Nibble) (b : Byte) : (s.setReg x b).v = s.v.set x.toNat b := rfl
@[simp] theorem State.setReg_i (x : Nibble) (b : Byte) : (s.setReg x b).i = s.i := rfl
@[simp] theorem State.setReg_pc (x : Nibble) (b : Byte) : (s.setReg x b).pc = s.pc := rfl
@[simp] theorem State.setReg_sp (x : Nibble) (b : Byte) : (s.setReg x b).sp = s.sp := rfl
@[simp] theorem State.setReg_stack (x : Nibble) (b : Byte) : (s.setReg x b).stack = s.stack := rfl
@[simp] theorem State.setReg_dt (x : Nibble) (b : Byte) : (s.setReg x b).dt = s.dt := rfl
@[simp] theorem State.setReg_st (x : Nibble) (b : Byte) : (s.setReg x b).st = s.st := rfl
@[simp] theorem State.setReg_fb (x : Nibble) (b : Byte) : (s.setReg x b).fb = s.fb := rfl
@[simp] theorem State.setReg_mem (x : Nibble) (b : Byte) : (s.setReg x b).mem = s.mem := rfl
@[simp] theorem State.setReg_redraw (x : Nibble) (b : Byte) : (s.setReg x b).redraw = s.redraw := rfl
@[simp] theorem State.setReg_soundActive (x : Nibble) (b : Byte) : (s.setReg x b).soundActive = s.soundActive := rfl
@[simp] theorem State.setReg_waiting (x : Nibble) (b : Byte) : (s.setReg x b).waiting = s.waiting := rfl
@[simp] theorem State.setReg_waitReg (x : Nibble) (b : Byte) : (s.setReg x b).waitReg = s.waitReg := rfl
@[simp] theorem State.setReg_halted (x : Nibble) (b : Byte) : (s.setReg x b).halted = s.halted := rfl
@[simp] theorem State.setReg_errCode (x : Nibble) (b : Byte) : (s.setReg x b).errCode = s.errCode := rfl
@[simp] theorem State.setReg_errValue (x : Nibble) (b : Byte) : (s.setReg x b).errValue = s.errValue := rfl
@[simp] theorem State.setReg_errPc (x : Nibble) (b : Byte) : (s.setReg x b).errPc = s.errPc := rfl
@[simp] theorem State.setReg_keypad (x : Nibble) (b : Byte) : (s.setReg x b).keypad = s.keypad := rfl
@[simp] theorem State.setReg_rnd (x : Nibble) (b : Byte) : (s.setReg x b).rnd = s.rnd := rfl
@[simp] theorem State.setReg_draws (x : Nibble) (b : Byte) : (s.setReg x b).draws = s.draws := rfl
@[simp] theorem State.setReg_params (x : Nibble) (b : Byte) : (s.setReg x b).params = s.params := rfl

/-! ### State.setVF -/

@[simp] theorem State.setVF_v (b : Byte) : (s.setVF b).v = s.v.set 15 b := rfl
@[simp] theorem State.setVF_i (b : Byte) : (s.setVF b).i = s.i := rfl
@[simp] theorem State.setVF_pc (b : Byte) : (s.setVF b).pc = s.pc := rfl
@[simp] theorem State.setVF_sp (b : Byte) : (s.setVF b).sp = s.sp := rfl
@[simp] theorem State.setVF_stack (b : Byte) : (s.setVF b).stack = s.stack := rfl
@[simp] theorem State.setVF_dt (b : Byte) : (s.setVF b).dt = s.dt := rfl
@[simp] theorem State.setVF_st (b : Byte) : (s.setVF b).st = s.st := rfl
@[simp] theorem State.setVF_fb (b : Byte) : (s.setVF b).fb = s.fb := rfl
@[simp] theorem State.setVF_mem (b : Byte) : (s.setVF b).mem = s.mem := rfl
@[simp] theorem State.setVF_redraw (b : Byte) : (s.setVF b).redraw = s.redraw := rfl
@[simp] theorem State.setVF_soundActive (b : Byte) : (s.setVF b).soundActive = s.soundActive := rfl
@[simp] theorem State.setVF_waiting (b : Byte) : (s.setVF b).waiting = s.waiting := rfl
@[simp] theorem State.setVF_waitReg (b : Byte) : (s.setVF b).waitReg = s.waitReg := rfl
@[simp] theorem State.setVF_halted (b : Byte) : (s.setVF b).halted = s.halted := rfl
@[simp] theorem State.setVF_errCode (b : Byte) : (s.setVF b).errCode = s.errCode := rfl
@[simp] theorem State.setVF_errValue (b : Byte) : (s.setVF b).errValue = s.errValue := rfl
@[simp] theorem State.setVF_errPc (b : Byte) : (s.setVF b).errPc = s.errPc := rfl
@[simp] theorem State.setVF_keypad (b : Byte) : (s.setVF b).keypad = s.keypad := rfl
@[simp] theorem State.setVF_rnd (b : Byte) : (s.setVF b).rnd = s.rnd := rfl
@[simp] theorem State.setVF_draws (b : Byte) : (s.setVF b).draws = s.draws := rfl
@[simp] theorem State.setVF_params (b : Byte) : (s.setVF b).params = s.params := rfl

/-! ### State.writeByte -/

@[simp] theorem State.writeByte_v (a : Nat) (b : Byte) : (s.writeByte a b).v = s.v := rfl
@[simp] theorem State.writeByte_i (a : Nat) (b : Byte) : (s.writeByte a b).i = s.i := rfl
@[simp] theorem State.writeByte_pc (a : Nat) (b : Byte) : (s.writeByte a b).pc = s.pc := rfl
@[simp] theorem State.writeByte_sp (a : Nat) (b : Byte) : (s.writeByte a b).sp = s.sp := rfl
@[simp] theorem State.writeByte_stack (a : Nat) (b : Byte) : (s.writeByte a b).stack = s.stack := rfl
@[simp] theorem State.writeByte_dt (a : Nat) (b : Byte) : (s.writeByte a b).dt = s.dt := rfl
@[simp] theorem State.writeByte_st (a : Nat) (b : Byte) : (s.writeByte a b).st = s.st := rfl
@[simp] theorem State.writeByte_fb (a : Nat) (b : Byte) : (s.writeByte a b).fb = s.fb := rfl
@[simp] theorem State.writeByte_mem (a : Nat) (b : Byte) : (s.writeByte a b).mem = Memory.write s.params.font s.mem a b := rfl
@[simp] theorem State.writeByte_redraw (a : Nat) (b : Byte) : (s.writeByte a b).redraw = s.redraw := rfl
@[simp] theorem State.writeByte_soundActive (a : Nat) (b : Byte) : (s.writeByte a b).soundActive = s.soundActive := rfl
@[simp] theorem State.writeByte_waiting (a : Nat) (b : Byte) : (s.writeByte a b).waiting = s.waiting := rfl
@[simp] theorem State.writeByte_waitReg (a : Nat) (b : Byte) : (s.writeByte a b).waitReg = s.waitReg := rfl
@[simp] theorem State.writeByte_halted (a : Nat) (b : Byte) : (s.writeByte a b).halted = s.halted := rfl
@[simp] theorem State.writeByte_errCode (a : Nat) (b : Byte) : (s.writeByte a b).errCode = s.errCode := rfl
@[simp] theorem State.writeByte_errValue (a : Nat) (b : Byte) : (s.writeByte a b).errValue = s.errValue := rfl
@[simp] theorem State.writeByte_errPc (a : Nat) (b : Byte) : (s.writeByte a b).errPc = s.errPc := rfl
@[simp] theorem State.writeByte_keypad (a : Nat) (b : Byte) : (s.writeByte a b).keypad = s.keypad := rfl
@[simp] theorem State.writeByte_rnd (a : Nat) (b : Byte) : (s.writeByte a b).rnd = s.rnd := rfl
@[simp] theorem State.writeByte_draws (a : Nat) (b : Byte) : (s.writeByte a b).draws = s.draws := rfl
@[simp] theorem State.writeByte_params (a : Nat) (b : Byte) : (s.writeByte a b).params = s.params := rfl

/-! ### State.advance -/

@[simp] theorem State.advance_v : (s.advance).v = s.v := rfl
@[simp] theorem State.advance_i : (s.advance).i = s.i := rfl
@[simp] theorem State.advance_pc : (s.advance).pc = s.pc + 2 := rfl
@[simp] theorem State.advance_sp : (s.advance).sp = s.sp := rfl
@[simp] theorem State.advance_stack : (s.advance).stack = s.stack := rfl
@[simp] theorem State.advance_dt : (s.advance).dt = s.dt := rfl
@[simp] theorem State.advance_st : (s.advance).st = s.st := rfl
@[simp] theorem State.advance_fb : (s.advance).fb = s.fb := rfl
@[simp] theorem State.advance_mem : (s.advance).mem = s.mem := rfl
@[simp] theorem State.advance_redraw : (s.advance).redraw = s.redraw := rfl
@[simp] theorem State.advance_soundActive : (s.advance).soundActive = s.soundActive := rfl
@[simp] theorem State.advance_waiting : (s.advance).waiting = s.waiting := rfl
@[simp] theorem State.advance_waitReg : (s.advance).waitReg = s.waitReg := rfl
@[simp] theorem State.advance_halted : (s.advance).halted = s.halted := rfl
@[simp] theorem State.advance_errCode : (s.advance).errCode = s.errCode := rfl
@[simp] theorem State.advance_errValue : (s.advance).errValue = s.errValue := rfl
@[simp] theorem State.advance_errPc : (s.advance).errPc = s.errPc := rfl
@[simp] theorem State.advance_keypad : (s.advance).keypad = s.keypad := rfl
@[simp] theorem State.advance_rnd : (s.advance).rnd = s.rnd := rfl
@[simp] theorem State.advance_draws : (s.advance).draws = s.draws := rfl
@[simp] theorem State.advance_params : (s.advance).params = s.params := rfl

/-! ### State.skipIf -/

@[simp] theorem State.skipIf_v (c : Bool) : (s.skipIf c).v = s.v := rfl
@[simp] theorem State.skipIf_i (c : Bool) : (s.skipIf c).i = s.i := rfl
@[simp] theorem State.skipIf_pc (c : Bool) : (s.skipIf c).pc = if c then s.pc + 4 else s.pc + 2 := rfl
@[simp] theorem State.skipIf_sp (c : Bool) : (s.skipIf c).sp = s.sp := rfl
@[simp] theorem State.skipIf_stack (c : Bool) : (s.skipIf c).stack = s.stack := rfl
@[simp] theorem State.skipIf_dt (c : Bool) : (s.skipIf c).dt = s.dt := rfl
@[simp] theorem State.skipIf_st (c : Bool) : (s.skipIf c).st = s.st := rfl
@[simp] theorem State.skipIf_fb (c : Bool) : (s.skipIf c).fb = s.fb := rfl
@[simp] theorem State.skipIf_mem (c : Bool) : (s.skipIf c).mem = s.mem := rfl
@[simp] theorem State.skipIf_redraw (c : Bool) : (s.skipIf c).redraw = s.redraw := rfl
@[simp] theorem State.skipIf_soundActive (c : Bool) : (s.skipIf c).soundActive = s.soundActive := rfl
@[simp] theorem State.skipIf_waiting (c : Bool) : (s.skipIf c).waiting = s.waiting := rfl
@[simp] theorem State.skipIf_waitReg (c : Bool) : (s.skipIf c).waitReg = s.waitReg := rfl
@[simp] theorem State.skipIf_halted (c : Bool) : (s.skipIf c).halted = s.halted := rfl
@[simp] theorem State.skipIf_errCode (c : Bool) : (s.skipIf c).errCode = s.errCode := rfl
@[simp] theorem State.skipIf_errValue (c : Bool) : (s.skipIf c).errValue = s.errValue := rfl
@[simp] theorem State.skipIf_errPc (c : Bool) : (s.skipIf c).errPc = s.errPc := rfl
@[simp] theorem State.skipIf_keypad (c : Bool) : (s.skipIf c).keypad = s.keypad := rfl
@[simp] theorem State.skipIf_rnd (c : Bool) : (s.skipIf c).rnd = s.rnd := rfl
@[simp] theorem State.skipIf_draws (c : Bool) : (s.skipIf c).draws = s.draws := rfl
@[simp] theorem State.skipIf_params (c : Bool) : (s.skipIf c).params = s.params := rfl

/-! ### State.jumpTo -/

@[simp] theorem State.jumpTo_v (w : Word) : (s.jumpTo w).v = s.v := rfl
@[simp] theorem State.jumpTo_i (w : Word) : (s.jumpTo w).i = s.i := rfl
@[simp] theorem State.jumpTo_pc (w : Word) : (s.jumpTo w).pc = w := rfl
@[simp] theorem State.jumpTo_sp (w : Word) : (s.jumpTo w).sp = s.sp := rfl
@[simp] theorem State.jumpTo_stack (w : Word) : (s.jumpTo w).stack = s.stack := rfl
@[simp] theorem State.jumpTo_dt (w : Word) : (s.jumpTo w).dt = s.dt := rfl
@[simp] theorem State.jumpTo_st (w : Word) : (s.jumpTo w).st = s.st := rfl
@[simp] theorem State.jumpTo_fb (w : Word) : (s.jumpTo w).fb = s.fb := rfl
@[simp] theorem State.jumpTo_mem (w : Word) : (s.jumpTo w).mem = s.mem := rfl
@[simp] theorem State.jumpTo_redraw (w : Word) : (s.jumpTo w).redraw = s.redraw := rfl
@[simp] theorem State.jumpTo_soundActive (w : Word) : (s.jumpTo w).soundActive = s.soundActive := rfl
@[simp] theorem State.jumpTo_waiting (w : Word) : (s.jumpTo w).waiting = s.waiting := rfl
@[simp] theorem State.jumpTo_waitReg (w : Word) : (s.jumpTo w).waitReg = s.waitReg := rfl
@[simp] theorem State.jumpTo_halted (w : Word) : (s.jumpTo w).halted = s.halted := rfl
@[simp] theorem State.jumpTo_errCode (w : Word) : (s.jumpTo w).errCode = s.errCode := rfl
@[simp] theorem State.jumpTo_errValue (w : Word) : (s.jumpTo w).errValue = s.errValue := rfl
@[simp] theorem State.jumpTo_errPc (w : Word) : (s.jumpTo w).errPc = s.errPc := rfl
@[simp] theorem State.jumpTo_keypad (w : Word) : (s.jumpTo w).keypad = s.keypad := rfl
@[simp] theorem State.jumpTo_rnd (w : Word) : (s.jumpTo w).rnd = s.rnd := rfl
@[simp] theorem State.jumpTo_draws (w : Word) : (s.jumpTo w).draws = s.draws := rfl
@[simp] theorem State.jumpTo_params (w : Word) : (s.jumpTo w).params = s.params := rfl

/-! ### State.raise -/

@[simp] theorem State.raise_v (e : ErrorKind) (w : Word) : (s.raise e w).v = s.v := rfl
@[simp] theorem State.raise_i (e : ErrorKind) (w : Word) : (s.raise e w).i = s.i := rfl
@[simp] theorem State.raise_pc (e : ErrorKind) (w : Word) : (s.raise e w).pc = s.pc := rfl
@[simp] theorem State.raise_sp (e : ErrorKind) (w : Word) : (s.raise e w).sp = s.sp := rfl
@[simp] theorem State.raise_stack (e : ErrorKind) (w : Word) : (s.raise e w).stack = s.stack := rfl
@[simp] theorem State.raise_dt (e : ErrorKind) (w : Word) : (s.raise e w).dt = s.dt := rfl
@[simp] theorem State.raise_st (e : ErrorKind) (w : Word) : (s.raise e w).st = s.st := rfl
@[simp] theorem State.raise_fb (e : ErrorKind) (w : Word) : (s.raise e w).fb = s.fb := rfl
@[simp] theorem State.raise_mem (e : ErrorKind) (w : Word) : (s.raise e w).mem = s.mem := rfl
@[simp] theorem State.raise_redraw (e : ErrorKind) (w : Word) : (s.raise e w).redraw = s.redraw := rfl
@[simp] theorem State.raise_soundActive (e : ErrorKind) (w : Word) : (s.raise e w).soundActive = s.soundActive := rfl
@[simp] theorem State.raise_waiting (e : ErrorKind) (w : Word) : (s.raise e w).waiting = s.waiting := rfl
@[simp] theorem State.raise_waitReg (e : ErrorKind) (w : Word) : (s.raise e w).waitReg = s.waitReg := rfl
@[simp] theorem State.raise_halted (e : ErrorKind) (w : Word) : (s.raise e w).halted = true := rfl
@[simp] theorem State.raise_errCode (e : ErrorKind) (w : Word) : (s.raise e w).errCode = e.code := rfl
@[simp] theorem State.raise_errValue (e : ErrorKind) (w : Word) : (s.raise e w).errValue = w := rfl
@[simp] theorem State.raise_errPc (e : ErrorKind) (w : Word) : (s.raise e w).errPc = s.pc := rfl
@[simp] theorem State.raise_keypad (e : ErrorKind) (w : Word) : (s.raise e w).keypad = s.keypad := rfl
@[simp] theorem State.raise_rnd (e : ErrorKind) (w : Word) : (s.raise e w).rnd = s.rnd := rfl
@[simp] theorem State.raise_draws (e : ErrorKind) (w : Word) : (s.raise e w).draws = s.draws := rfl
@[simp] theorem State.raise_params (e : ErrorKind) (w : Word) : (s.raise e w).params = s.params := rfl

/-! ### State.clearOutputs -/

@[simp] theorem State.clearOutputs_v : (s.clearOutputs).v = s.v := rfl
@[simp] theorem State.clearOutputs_i : (s.clearOutputs).i = s.i := rfl
@[simp] theorem State.clearOutputs_pc : (s.clearOutputs).pc = s.pc := rfl
@[simp] theorem State.clearOutputs_sp : (s.clearOutputs).sp = s.sp := rfl
@[simp] theorem State.clearOutputs_stack : (s.clearOutputs).stack = s.stack := rfl
@[simp] theorem State.clearOutputs_dt : (s.clearOutputs).dt = s.dt := rfl
@[simp] theorem State.clearOutputs_st : (s.clearOutputs).st = s.st := rfl
@[simp] theorem State.clearOutputs_fb : (s.clearOutputs).fb = s.fb := rfl
@[simp] theorem State.clearOutputs_mem : (s.clearOutputs).mem = s.mem := rfl
@[simp] theorem State.clearOutputs_redraw : (s.clearOutputs).redraw = false := rfl
@[simp] theorem State.clearOutputs_soundActive : (s.clearOutputs).soundActive = false := rfl
@[simp] theorem State.clearOutputs_waiting : (s.clearOutputs).waiting = s.waiting := rfl
@[simp] theorem State.clearOutputs_waitReg : (s.clearOutputs).waitReg = s.waitReg := rfl
@[simp] theorem State.clearOutputs_halted : (s.clearOutputs).halted = s.halted := rfl
@[simp] theorem State.clearOutputs_errCode : (s.clearOutputs).errCode = s.errCode := rfl
@[simp] theorem State.clearOutputs_errValue : (s.clearOutputs).errValue = s.errValue := rfl
@[simp] theorem State.clearOutputs_errPc : (s.clearOutputs).errPc = s.errPc := rfl
@[simp] theorem State.clearOutputs_keypad : (s.clearOutputs).keypad = s.keypad := rfl
@[simp] theorem State.clearOutputs_rnd : (s.clearOutputs).rnd = s.rnd := rfl
@[simp] theorem State.clearOutputs_draws : (s.clearOutputs).draws = s.draws := rfl
@[simp] theorem State.clearOutputs_params : (s.clearOutputs).params = s.params := rfl

/-! ### State.tickTimers -/

@[simp] theorem State.tickTimers_v : (s.tickTimers).v = s.v := rfl
@[simp] theorem State.tickTimers_i : (s.tickTimers).i = s.i := rfl
@[simp] theorem State.tickTimers_pc : (s.tickTimers).pc = s.pc := rfl
@[simp] theorem State.tickTimers_sp : (s.tickTimers).sp = s.sp := rfl
@[simp] theorem State.tickTimers_stack : (s.tickTimers).stack = s.stack := rfl
@[simp] theorem State.tickTimers_dt : (s.tickTimers).dt = countDown s.dt := rfl
@[simp] theorem State.tickTimers_st : (s.tickTimers).st = countDown s.st := rfl
@[simp] theorem State.tickTimers_fb : (s.tickTimers).fb = s.fb := rfl
@[simp] theorem State.tickTimers_mem : (s.tickTimers).mem = s.mem := rfl
@[simp] theorem State.tickTimers_redraw : (s.tickTimers).redraw = s.redraw := rfl
@[simp] theorem State.tickTimers_soundActive : (s.tickTimers).soundActive = decide (s.st ≠ 0) := rfl
@[simp] theorem State.tickTimers_waiting : (s.tickTimers).waiting = s.waiting := rfl
@[simp] theorem State.tickTimers_waitReg : (s.tickTimers).waitReg = s.waitReg := rfl
@[simp] theorem State.tickTimers_halted : (s.tickTimers).halted = s.halted := rfl
@[simp] theorem State.tickTimers_errCode : (s.tickTimers).errCode = s.errCode := rfl
@[simp] theorem State.tickTimers_errValue : (s.tickTimers).errValue = s.errValue := rfl
@[simp] theorem State.tickTimers_errPc : (s.tickTimers).errPc = s.errPc := rfl
@[simp] theorem State.tickTimers_keypad : (s.tickTimers).keypad = s.keypad := rfl
@[simp] theorem State.tickTimers_rnd : (s.tickTimers).rnd = s.rnd := rfl
@[simp] theorem State.tickTimers_draws : (s.tickTimers).draws = s.draws := rfl
@[simp] theorem State.tickTimers_params : (s.tickTimers).params = s.params := rfl

/-! ### State.afterDraw -/

@[simp] theorem State.afterDraw_v : (s.afterDraw).v = s.v := rfl
@[simp] theorem State.afterDraw_i : (s.afterDraw).i = s.i := rfl
@[simp] theorem State.afterDraw_pc : (s.afterDraw).pc = s.pc := rfl
@[simp] theorem State.afterDraw_sp : (s.afterDraw).sp = s.sp := rfl
@[simp] theorem State.afterDraw_stack : (s.afterDraw).stack = s.stack := rfl
@[simp] theorem State.afterDraw_dt : (s.afterDraw).dt = s.dt := rfl
@[simp] theorem State.afterDraw_st : (s.afterDraw).st = s.st := rfl
@[simp] theorem State.afterDraw_fb : (s.afterDraw).fb = s.fb := rfl
@[simp] theorem State.afterDraw_mem : (s.afterDraw).mem = s.mem := rfl
@[simp] theorem State.afterDraw_redraw : (s.afterDraw).redraw = s.redraw := rfl
@[simp] theorem State.afterDraw_soundActive : (s.afterDraw).soundActive = s.soundActive := rfl
@[simp] theorem State.afterDraw_waiting : (s.afterDraw).waiting = s.waiting := rfl
@[simp] theorem State.afterDraw_waitReg : (s.afterDraw).waitReg = s.waitReg := rfl
@[simp] theorem State.afterDraw_halted : (s.afterDraw).halted = s.halted := rfl
@[simp] theorem State.afterDraw_errCode : (s.afterDraw).errCode = s.errCode := rfl
@[simp] theorem State.afterDraw_errValue : (s.afterDraw).errValue = s.errValue := rfl
@[simp] theorem State.afterDraw_errPc : (s.afterDraw).errPc = s.errPc := rfl
@[simp] theorem State.afterDraw_keypad : (s.afterDraw).keypad = s.keypad := rfl
@[simp] theorem State.afterDraw_rnd : (s.afterDraw).rnd = s.rnd.tail := rfl
@[simp] theorem State.afterDraw_draws : (s.afterDraw).draws = s.draws + 1 := rfl
@[simp] theorem State.afterDraw_params : (s.afterDraw).params = s.params := rfl

/-! ### State.takeKey -/

@[simp] theorem State.takeKey_v (x : Nibble) (k : Nat) : (s.takeKey x k).v = s.v.set x.toNat (BitVec.ofNat 8 k) := rfl
@[simp] theorem State.takeKey_i (x : Nibble) (k : Nat) : (s.takeKey x k).i = s.i := rfl
@[simp] theorem State.takeKey_pc (x : Nibble) (k : Nat) : (s.takeKey x k).pc = s.pc + 2 := rfl
@[simp] theorem State.takeKey_sp (x : Nibble) (k : Nat) : (s.takeKey x k).sp = s.sp := rfl
@[simp] theorem State.takeKey_stack (x : Nibble) (k : Nat) : (s.takeKey x k).stack = s.stack := rfl
@[simp] theorem State.takeKey_dt (x : Nibble) (k : Nat) : (s.takeKey x k).dt = s.dt := rfl
@[simp] theorem State.takeKey_st (x : Nibble) (k : Nat) : (s.takeKey x k).st = s.st := rfl
@[simp] theorem State.takeKey_fb (x : Nibble) (k : Nat) : (s.takeKey x k).fb = s.fb := rfl
@[simp] theorem State.takeKey_mem (x : Nibble) (k : Nat) : (s.takeKey x k).mem = s.mem := rfl
@[simp] theorem State.takeKey_redraw (x : Nibble) (k : Nat) : (s.takeKey x k).redraw = s.redraw := rfl
@[simp] theorem State.takeKey_soundActive (x : Nibble) (k : Nat) : (s.takeKey x k).soundActive = s.soundActive := rfl
@[simp] theorem State.takeKey_waiting (x : Nibble) (k : Nat) : (s.takeKey x k).waiting = s.waiting := rfl
@[simp] theorem State.takeKey_waitReg (x : Nibble) (k : Nat) : (s.takeKey x k).waitReg = s.waitReg := rfl
@[simp] theorem State.takeKey_halted (x : Nibble) (k : Nat) : (s.takeKey x k).halted = s.halted := rfl
@[simp] theorem State.takeKey_errCode (x : Nibble) (k : Nat) : (s.takeKey x k).errCode = s.errCode := rfl
@[simp] theorem State.takeKey_errValue (x : Nibble) (k : Nat) : (s.takeKey x k).errValue = s.errValue := rfl
@[simp] theorem State.takeKey_errPc (x : Nibble) (k : Nat) : (s.takeKey x k).errPc = s.errPc := rfl
@[simp] theorem State.takeKey_keypad (x : Nibble) (k : Nat) : (s.takeKey x k).keypad = s.keypad := rfl
@[simp] theorem State.takeKey_rnd (x : Nibble) (k : Nat) : (s.takeKey x k).rnd = s.rnd := rfl
@[simp] theorem State.takeKey_draws (x : Nibble) (k : Nat) : (s.takeKey x k).draws = s.draws := rfl
@[simp] theorem State.takeKey_params (x : Nibble) (k : Nat) : (s.takeKey x k).params = s.params := rfl

end Sys2Proof.Machine
end

