-- ==== Sys2Proof/Laws/Memory.lean ====
section
/-! SUPPORT. Memory as data: a read gives the last write, and every operation keeps the canonical form. -/

namespace Sys2Proof.Machine

variable {font : Vector Byte 80} {m : Memory}

theorem Memory.lookup_drop (a c : Nat) (m : Memory) :
    Memory.lookup c (Memory.drop a m) = if c = a then none else Memory.lookup c m := by
  induction m with
  | nil => simp [Memory.drop, Memory.lookup]
  | cons e rest ih =>
    obtain ⟨k, b⟩ := e
    by_cases hk : k = a <;> by_cases hc : c = a <;> simp_all [Memory.drop, Memory.lookup]
    intro h
    exact absurd h (Ne.symm hc)

theorem Memory.lookup_put (a c : Nat) (b : Byte) (m : Memory) :
    Memory.lookup c (Memory.put a b m) = if c = a then some b else Memory.lookup c m := by
  induction m with
  | nil => simp [Memory.put, Memory.lookup, eq_comm]
  | cons e rest ih =>
    obtain ⟨k, d⟩ := e
    simp only [Memory.put]
    split
    · simp [Memory.lookup, eq_comm]
    · split
      · subst k; by_cases hc : c = a <;> simp [Memory.lookup, hc, Ne.symm]
      · by_cases hc : c = a <;> simp_all [Memory.lookup]
        intro h
        omega

/-- A read gives the byte last written to its address, and a write leaves every other byte. -/
theorem Memory.read_write {a : Nat} (c : Nat) (b : Byte) (h : a < Memory.size) :
    Memory.read font (Memory.write font m a b) c = if c = a then b else Memory.read font m c := by
  unfold Memory.write
  rw [if_pos h]
  by_cases hb : b = Memory.unlisted font a
  · rw [if_pos hb, Memory.read, Memory.lookup_drop, Memory.read]
    by_cases hc : c = a <;> simp [hc, hb]
  · rw [if_neg hb, Memory.read, Memory.lookup_put, Memory.read]
    by_cases hc : c = a <;> simp [hc]

theorem Memory.wfFrom_mono {lo lo' : Nat} (h : lo' ≤ lo) (hm : Memory.wfFrom font lo m = true) :
    Memory.wfFrom font lo' m = true := by
  cases m with
  | nil => rfl
  | cons e rest =>
    simp only [Memory.wfFrom, Bool.and_eq_true, decide_eq_true_eq] at hm ⊢
    exact ⟨⟨⟨by omega, hm.1.1.2⟩, hm.1.2⟩, hm.2⟩

theorem Memory.wfFrom_drop (a : Nat) : ∀ {lo : Nat} {m : Memory}, Memory.wfFrom font lo m = true →
    Memory.wfFrom font lo (Memory.drop a m) = true
  | _, [], _ => rfl
  | lo, (k, b) :: rest, h => by
    simp only [Memory.wfFrom, Bool.and_eq_true, decide_eq_true_eq] at h
    simp only [Memory.drop]
    split
    · exact Memory.wfFrom_drop a (Memory.wfFrom_mono (by omega) h.2)
    · simp only [Memory.wfFrom, Bool.and_eq_true, decide_eq_true_eq]
      exact ⟨h.1, Memory.wfFrom_drop a h.2⟩

theorem Memory.wfFrom_put {a : Nat} {b : Byte} (ha : a < Memory.size) (hb : b ≠ Memory.unlisted font a) :
    ∀ {lo : Nat} {m : Memory}, lo ≤ a → Memory.wfFrom font lo m = true →
      Memory.wfFrom font lo (Memory.put a b m) = true
  | lo, [], hlo, _ => by simp [Memory.put, Memory.wfFrom, hlo, ha, hb]
  | lo, (k, c) :: rest, hlo, h => by
    have h' := h
    simp only [Memory.wfFrom, Bool.and_eq_true, decide_eq_true_eq] at h
    simp only [Memory.put]
    split
    · simp only [Memory.wfFrom, Bool.and_eq_true, decide_eq_true_eq]
      exact ⟨⟨⟨hlo, ha⟩, hb⟩, ⟨⟨by omega, h.1.1.2⟩, h.1.2⟩, h.2⟩
    · split
      · subst k
        simp only [Memory.wfFrom, Bool.and_eq_true, decide_eq_true_eq]
        exact ⟨⟨⟨hlo, ha⟩, hb⟩, h.2⟩
      · simp only [Memory.wfFrom, Bool.and_eq_true, decide_eq_true_eq]
        exact ⟨h.1, Memory.wfFrom_put ha hb (by omega) h.2⟩

/-- A write keeps the canonical form. -/
theorem Memory.wf_write (a : Nat) (b : Byte) (h : Memory.wf font m = true) :
    Memory.wf font (Memory.write font m a b) = true := by
  unfold Memory.write Memory.wf at *
  split
  · split
    · exact Memory.wfFrom_drop a h
    · exact Memory.wfFrom_put ‹_› ‹_› (Nat.zero_le a) h
  · exact h

/-- Memory with nothing listed is canonical. -/
theorem Memory.wf_nil : Memory.wf font [] = true := rfl

/-! ### Memory of a state -/

theorem State.readByte_writeByte (s : State) {a : Nat} (c : Nat) (b : Byte) (h : a < 0x1000) :
    (s.writeByte a b).readByte c = if c = a then b else s.readByte c :=
  Memory.read_write c b h

theorem State.readByte_congr {s t : State} (hm : t.mem = s.mem) (hp : t.params = s.params) (a : Nat) :
    t.readByte a = s.readByte a := by
  unfold State.readByte; rw [hm, hp]

/-- Writing bytes changes no field but memory. -/
theorem State.writeBytes_eq (s : State) (a : Nat) (bs : List Byte) :
    s.writeBytes a bs = { s with mem := (s.writeBytes a bs).mem } := by
  induction bs generalizing s a with
  | nil => rfl
  | cons b bs ih => rw [State.writeBytes, ih]; rfl

/-- What memory holds after a run of bytes is written inside it. -/
theorem State.readByte_writeBytes (s : State) (a : Nat) (bs : List Byte) (h : a + bs.length ≤ 0x1000) (c : Nat) :
    (s.writeBytes a bs).readByte c = if a ≤ c then bs.getD (c - a) (s.readByte c) else s.readByte c := by
  induction bs generalizing s a with
  | nil => simp [State.writeBytes]
  | cons b bs ih =>
    simp only [List.length_cons] at h
    rw [State.writeBytes, ih _ _ (by omega), State.readByte_writeByte _ _ _ (by omega)]
    rcases Nat.lt_trichotomy c a with hc | hc | hc
    · rw [if_neg (by omega), if_neg (by omega), if_neg (by omega)]
    · subst hc; simp
    · rw [if_pos (by omega), if_neg (by omega), if_pos (by omega)]
      obtain ⟨d, rfl⟩ : ∃ d, c = a + 1 + d := ⟨c - (a + 1), by omega⟩
      rw [show a + 1 + d - (a + 1) = d by omega, show a + 1 + d - a = d + 1 by omega, List.getD_cons_succ]

theorem State.wf_writeBytes (s : State) (a : Nat) (bs : List Byte)
    (h : Memory.wf s.params.font s.mem = true) :
    Memory.wf s.params.font (s.writeBytes a bs).mem = true := by
  induction bs generalizing s a with
  | nil => exact h
  | cons b bs ih => exact ih (s.writeByte a b) (a + 1) (Memory.wf_write a b h)

@[simp] theorem State.length_readBytes (s : State) (a n : Nat) : (s.readBytes a n).length = n := by
  induction n generalizing a with
  | zero => rfl
  | succ n ih => simp [State.readBytes, ih]

theorem State.getElem_readBytes (s : State) (a n k : Nat) (h : k < (s.readBytes a n).length) :
    (s.readBytes a n)[k] = s.readByte (a + k) := by
  induction n generalizing a k with
  | zero => simp [State.readBytes] at h
  | succ n ih =>
    cases k with
    | zero => rfl
    | succ k =>
      simp only [State.readBytes, List.getElem_cons_succ]
      rw [ih, Nat.add_right_comm, Nat.add_assoc]

end Sys2Proof.Machine
end

