-- ==== Sys2Proof/Laws/Ops.lean ====
section
/-! SUPPORT. One lemma per shared operation, saying everything it can do: registers, block accesses, the stack, the
keypad scan, and stage 5. -/

namespace Sys2Proof.Machine

/-! ### Registers -/

theorem State.reg_congr {s t : State} (h : t.v = s.v) (r : Nibble) : t.reg r = s.reg r := by
  unfold State.reg; simp only [h]

/-- Writing a register: it holds the byte, and every other register is unchanged. -/
theorem State.reg_setReg (s : State) (x r : Nibble) (b : Byte) :
    (s.setReg x b).reg r = if r = x then b else s.reg r := by
  simp only [State.reg, State.setReg, Vector.getElem_set]
  by_cases h : r = x
  · simp [h]
  · rw [if_neg (fun e => h (BitVec.eq_of_toNat_eq e.symm)), if_neg h]

/-- Writing VF: register 15 holds the byte, and every other register is unchanged. -/
theorem State.reg_setVF (s : State) (r : Nibble) (b : Byte) :
    (s.setVF b).reg r = if r = 0xF then b else s.reg r :=
  State.reg_setReg s 0xF r b

/-- Writing registers in order changes no field but the registers. -/
theorem State.setRegsFrom_eq (s : State) (k : Nat) (bs : List Byte) :
    s.setRegsFrom k bs = { s with v := (s.setRegsFrom k bs).v } := by
  induction bs generalizing s k with
  | nil => rfl
  | cons b bs ih => rw [State.setRegsFrom, ih]; rfl

/-- What the registers hold after a run of them is written from register `k` on. -/
theorem State.reg_setRegsFrom (s : State) (k : Nat) (bs : List Byte) (h : k + bs.length ≤ 16) (r : Nibble) :
    (s.setRegsFrom k bs).reg r = if k ≤ r.toNat then bs.getD (r.toNat - k) (s.reg r) else s.reg r := by
  induction bs generalizing s k with
  | nil => simp [State.setRegsFrom]
  | cons b bs ih =>
    simp only [List.length_cons] at h
    rw [State.setRegsFrom, ih _ _ (by omega), State.reg_setReg]
    have hk : (BitVec.ofNat 4 k).toNat = k := by simp only [BitVec.toNat_ofNat]; omega
    rcases Nat.lt_trichotomy r.toNat k with hc | hc | hc
    · rw [if_neg (by omega), if_neg (by rintro rfl; omega), if_neg (by omega)]
    · rw [if_neg (by omega), if_pos (BitVec.eq_of_toNat_eq (by omega)), if_pos (by omega)]
      simp [hc]
    · rw [if_pos (by omega), if_neg (by rintro rfl; omega), if_pos (by omega)]
      obtain ⟨d, hd⟩ : ∃ d, r.toNat = k + 1 + d := ⟨r.toNat - (k + 1), by omega⟩
      rw [hd, show k + 1 + d - (k + 1) = d by omega, show k + 1 + d - k = d + 1 by omega, List.getD_cons_succ]

@[simp] theorem State.length_regsUpTo (s : State) (x : Nibble) : (s.regsUpTo x).length = x.toNat + 1 := by
  have := x.isLt
  simp only [State.regsUpTo, List.length_take, Vector.length_toList]
  omega

/-- The k-th of V0..Vx. -/
theorem State.getD_regsUpTo (s : State) (x : Nibble) (k : Nat) (d : Byte) (h : k ≤ x.toNat) :
    (s.regsUpTo x).getD k d = s.reg (BitVec.ofNat 4 k) := by
  have hx := x.isLt
  have hk : (BitVec.ofNat 4 k).toNat = k := by simp only [BitVec.toNat_ofNat]; omega
  rw [List.getD_eq_getElem _ _ (by rw [State.length_regsUpTo]; omega)]
  simp only [State.regsUpTo, List.getElem_take, State.reg, hk, Vector.getElem_toList]

/-! ### Block accesses -/

/-- The range check: a block that fits does not fault, one that reaches past 0xFFF faults with the lowest address
outside memory. -/
theorem blockFault_eq (base : Word) (n : Nat) :
    (n = 0 ∨ base.toNat + n - 1 ≤ 0xFFF → blockFault base n = none) ∧
    (0 < n → 0xFFF < base.toNat + n - 1 → blockFault base n = some (BitVec.ofNat 16 (max base.toNat 0x1000))) := by
  unfold blockFault
  constructor
  · intro h; rw [if_neg (by omega)]
  · intro h h'; rw [if_pos ⟨h, h'⟩]

/-- A block read answers the bytes, or the faulting address. -/
theorem State.readBlock_eq (s : State) (base : Word) (n : Nat) :
    (n = 0 ∨ base.toNat + n - 1 ≤ 0xFFF → s.readBlock base n = .ok (s.readBytes base.toNat n)) ∧
    (0 < n → 0xFFF < base.toNat + n - 1 →
      s.readBlock base n = .error (BitVec.ofNat 16 (max base.toNat 0x1000))) := by
  unfold State.readBlock
  exact ⟨fun h => by rw [(blockFault_eq base n).1 h], fun h h' => by rw [(blockFault_eq base n).2 h h']⟩

/-- A block write answers the state with the bytes written, or the faulting address. -/
theorem State.writeBlock_eq (s : State) (base : Word) (bs : List Byte) :
    (bs.length = 0 ∨ base.toNat + bs.length - 1 ≤ 0xFFF →
      s.writeBlock base bs = .ok (s.writeBytes base.toNat bs)) ∧
    (0 < bs.length → 0xFFF < base.toNat + bs.length - 1 →
      s.writeBlock base bs = .error (BitVec.ofNat 16 (max base.toNat 0x1000))) := by
  unfold State.writeBlock
  exact ⟨fun h => by rw [(blockFault_eq base _).1 h], fun h h' => by rw [(blockFault_eq base _).2 h h']⟩

/-- A block write that answers a state wrote the bytes and nothing else. -/
theorem State.writeBlock_ok {s t : State} {base : Word} {bs : List Byte} (h : s.writeBlock base bs = .ok t) :
    t = s.writeBytes base.toNat bs := by
  unfold State.writeBlock at h
  split at h
  · cases h
  · cases h; rfl

/-! ### Call stack -/

/-- A push that answers a state: the entry at the old stack pointer, and nothing else but the pointer. -/
theorem State.push?_some {s t : State} {w : Word} (h : s.push? w = some t) :
    ∃ hs : s.sp.val < 16, t = { s with stack := s.stack.set s.sp.val w hs, sp := ⟨s.sp.val + 1, by omega⟩ } := by
  unfold State.push? at h
  split at h
  · exact ⟨‹_›, (Option.some.inj h).symm⟩
  · cases h

theorem State.push?_none {s : State} {w : Word} (h : s.push? w = none) : s.sp.val = 16 := by
  unfold State.push? at h
  split at h
  · cases h
  · have := s.sp.isLt; omega

/-- A pop that answers an entry: the one below the stack pointer, and only the pointer changes. -/
theorem State.pop?_some {s t : State} {w : Word} (h : s.pop? = some (w, t)) :
    0 < s.sp.val ∧ w = s.entry (s.sp.val - 1) ∧ t = { s with sp := ⟨s.sp.val - 1, by omega⟩ } := by
  unfold State.pop? at h
  split at h
  · rename_i hs
    obtain ⟨rfl, rfl⟩ := Prod.mk.inj (Option.some.inj h)
    exact ⟨hs, by rw [State.entry, dif_pos (by omega)], rfl⟩
  · cases h

theorem State.pop?_none {s : State} (h : s.pop? = none) : s.sp.val = 0 := by
  unfold State.pop? at h
  split at h
  · cases h
  · omega

/-! ### Keypad -/

/-- The scan finds the lowest pressed key. -/
theorem State.lowestKey_some {s : State} {k : Nat} (h : s.lowestKey = some k) :
    k < 16 ∧ s.keypad.getLsbD k = true ∧ ∀ j, j < k → s.keypad.getLsbD j = false := by
  unfold State.lowestKey at h
  rw [List.find?_range_eq_some] at h
  obtain ⟨hp, hm, hj⟩ := h
  refine ⟨List.mem_range.mp hm, hp, fun j hjk => ?_⟩
  have := hj j hjk
  simpa [State.keyPressed] using this

/-- The scan finds nothing exactly when no key is pressed. -/
theorem State.lowestKey_none {s : State} (h : s.lowestKey = none) (k : Nat) (hk : k < 16) :
    s.keypad.getLsbD k = false := by
  unfold State.lowestKey at h
  rw [List.find?_eq_none] at h
  simpa [State.keyPressed] using h k (List.mem_range.mpr hk)

/-! ### Stage 5 -/

/-- A countdown in natural numbers: one less, and 0 stays 0. -/
theorem toNat_countDown (t : Byte) : (countDown t).toNat = t.toNat - 1 := by
  unfold countDown
  split
  · subst t; rfl
  · rename_i h
    have : t.toNat ≠ 0 := fun e => h (BitVec.eq_of_toNat_eq e)
    have := t.isLt
    have h1 : (1 : Byte).toNat = 1 := rfl
    rw [BitVec.toNat_sub, h1]
    omega

end Sys2Proof.Machine
end

