-- ==== Sys2Proof/Laws/Display.lean ====
section
/-! SUPPORT. The rasterizer as a list of points: a sprite plots the points its set bits land on, no point twice, so a
pixel is turned over exactly when it is one of them (44_display R304). -/

namespace Sys2Proof.Machine

/-- Two framebuffers with equal pixels are equal. -/
theorem Framebuffer.ext_pixel {f g : Framebuffer} (h : ∀ x y, Framebuffer.pixel f x y = Framebuffer.pixel g x y) :
    f = g := by
  refine Vector.ext fun i hi => Vector.ext fun j hj => ?_
  exact h ⟨i, hi⟩ ⟨j, hj⟩

/-- Turning a pixel over: that pixel changes, and no other does. -/
theorem Framebuffer.pixel_flip (fb : Framebuffer) (x a : Fin 64) (y b : Fin 32) :
    (Framebuffer.flip fb x y).pixel a b = if a = x ∧ b = y then !fb.pixel x y else fb.pixel a b := by
  have key : (Framebuffer.flip fb x y).pixel a b =
      (if x.val = a.val then fb[x.val].set y.val (!fb[x.val][y.val]) else fb[a.val])[b.val] :=
    congrArg (fun col : Vector Bool 32 => col[b.val]) (Vector.getElem_set x.isLt a.isLt)
  rw [key]
  by_cases hx : a = x
  · subst hx
    simp only [if_true, true_and, Vector.getElem_set]
    by_cases hy : b = y
    · subst hy; simp [Framebuffer.pixel]
    · rw [if_neg fun e => hy (Fin.ext e.symm), if_neg hy]; rfl
  · rw [if_neg fun e => hx (Fin.ext e.symm), if_neg fun e => hx e.1]
    rfl

theorem Framebuffer.pixel_blank (x : Fin 64) (y : Fin 32) : Framebuffer.blank.pixel x y = false := by
  simp [Framebuffer.pixel, Framebuffer.blank]

/-- Plot a list of points in order. -/
def Canvas.plotAll (pts : List (Fin 64 × Fin 32)) (c : Canvas) : Canvas :=
  pts.foldl (fun c p => c.plot p.1 p.2) c

/-- Plotting points without repeats turns over exactly those pixels. -/
theorem Canvas.pixel_plotAll (pts : List (Fin 64 × Fin 32)) (hn : pts.Nodup) (c : Canvas) (x : Fin 64) (y : Fin 32) :
    (c.plotAll pts).fb.pixel x y = if (x, y) ∈ pts then !c.fb.pixel x y else c.fb.pixel x y := by
  induction pts generalizing c with
  | nil => simp [Canvas.plotAll]
  | cons p rest ih =>
    obtain ⟨hp, hrest⟩ := List.nodup_cons.mp hn
    rw [Canvas.plotAll, List.foldl_cons, ← Canvas.plotAll, ih hrest]
    simp only [Canvas.plot, Framebuffer.pixel_flip, List.mem_cons]
    by_cases h : (x, y) = p
    · subst h; simp [hp]
    · have h' : ¬ (x = p.1 ∧ y = p.2) := fun e => h (Prod.ext e.1 e.2)
      simp [h, h']

/-- Plotting points without repeats notes a collision exactly when one of those pixels was lit. -/
theorem Canvas.collision_plotAll (pts : List (Fin 64 × Fin 32)) (hn : pts.Nodup) (c : Canvas) :
    (c.plotAll pts).collision = (c.collision || pts.any (fun p => c.fb.pixel p.1 p.2)) := by
  induction pts generalizing c with
  | nil => simp [Canvas.plotAll]
  | cons p rest ih =>
    obtain ⟨hp, hrest⟩ := List.nodup_cons.mp hn
    rw [Canvas.plotAll, List.foldl_cons, ← Canvas.plotAll, ih hrest]
    simp only [Canvas.plot, List.any_cons, Bool.or_assoc]
    congr 2
    rw [Bool.eq_iff_iff, List.any_eq_true, List.any_eq_true]
    refine exists_congr fun q => and_congr_right fun hq => ?_
    rw [Framebuffer.pixel_flip, if_neg]
    rintro ⟨h1, h2⟩
    exact hp (Prod.ext h1 h2 ▸ hq)

/-- The points sprite row `row` plots. -/
def rowPoints (cx cy row : Nat) (b : Byte) : List (Fin 64 × Fin 32) :=
  ((List.range 8).filter (fun col => b.getLsbD (7 - col))).map (fun col => (wrapColumn cx col, wrapRow cy row))

/-- The points the sprite's rows from `row` on plot. -/
def spritePoints (cx cy : Nat) : Nat → List Byte → List (Fin 64 × Fin 32)
  | _, [] => []
  | row, b :: bs => rowPoints cx cy row b ++ spritePoints cx cy (row + 1) bs

theorem Canvas.foldl_drawBit (cx cy row : Nat) (b : Byte) (cols : List Nat) (c : Canvas) :
    cols.foldl (fun d col => d.drawBit cx cy row b col) c =
      c.plotAll ((cols.filter (fun col => b.getLsbD (7 - col))).map
        (fun col => (wrapColumn cx col, wrapRow cy row))) := by
  induction cols generalizing c with
  | nil => rfl
  | cons col rest ih =>
    rw [List.foldl_cons, ih, Canvas.drawBit]
    by_cases h : b.getLsbD (7 - col) = true
    · simp only [h, if_true, List.filter_cons, List.map_cons]; rfl
    · simp only [h, Bool.false_eq_true, if_false, List.filter_cons]

theorem Canvas.drawRows_eq (cx cy row : Nat) (bs : List Byte) (c : Canvas) :
    Canvas.drawRows cx cy row bs c = c.plotAll (spritePoints cx cy row bs) := by
  induction bs generalizing row c with
  | nil => rfl
  | cons b bs ih =>
    rw [Canvas.drawRows, ih, Canvas.drawRow, Canvas.foldl_drawBit, spritePoints, rowPoints]
    simp only [Canvas.plotAll, List.foldl_append]

/-- A sprite plots its points. -/
theorem drawSprite_eq (cx cy : Byte) (sprite : List Byte) (fb : Framebuffer) :
    drawSprite cx cy sprite fb =
      Canvas.plotAll (spritePoints cx.toNat cy.toNat 0 sprite) { fb := fb, collision := false } :=
  Canvas.drawRows_eq _ _ _ _ _

theorem wrapColumn_val (cx col : Nat) : (wrapColumn cx col).val = (cx + col) % 64 := rfl

theorem wrapRow_val (cy row : Nat) : (wrapRow cy row).val = (cy + row) % 32 := rfl

/-- A point is plotted when a set bit of some row lands on it. -/
theorem mem_spritePoints (cx cy row : Nat) (bs : List Byte) (x : Fin 64) (y : Fin 32) :
    (x, y) ∈ spritePoints cx cy row bs ↔
      ∃ r col, r < bs.length ∧ col < 8 ∧ (bs.getD r 0).getLsbD (7 - col) = true ∧
        x.val = (cx + col) % 64 ∧ y.val = (cy + (row + r)) % 32 := by
  induction bs generalizing row with
  | nil => simp [spritePoints]
  | cons b bs ih =>
    rw [spritePoints, List.mem_append, ih]
    constructor
    · rintro (h | ⟨r, col, hr, hc, hb, hx, hy⟩)
      · obtain ⟨col, hcol, he⟩ := List.mem_map.mp h
        obtain ⟨hm, hb⟩ := List.mem_filter.mp hcol
        obtain ⟨rfl, rfl⟩ := Prod.mk.inj he
        exact ⟨0, col, by simp, List.mem_range.mp hm, by simpa using hb, rfl, by simp [wrapRow_val]⟩
      · exact ⟨r + 1, col, by simpa using hr, hc, by simpa using hb, hx, by rw [hy]; congr 1; omega⟩
    · rintro ⟨r, col, hr, hc, hb, hx, hy⟩
      cases r with
      | zero =>
        refine .inl (List.mem_map.mpr ⟨col, List.mem_filter.mpr ⟨List.mem_range.mpr hc, by simpa using hb⟩, ?_⟩)
        exact Prod.ext (Fin.ext hx.symm) (Fin.ext (by simpa [wrapRow_val] using hy.symm))
      | succ r =>
        exact .inr ⟨r, col, by simpa using hr, hc, by simpa using hb, hx, by rw [hy]; congr 1; omega⟩

/-- No point is plotted twice by a sprite of at most 32 rows. -/
theorem spritePoints_nodup (cx cy row : Nat) (bs : List Byte) (h : bs.length ≤ 32) :
    (spritePoints cx cy row bs).Nodup := by
  induction bs generalizing row with
  | nil => exact List.nodup_nil
  | cons b bs ih =>
    simp only [List.length_cons] at h
    refine List.nodup_append'.mpr ⟨?_, ih _ (by omega), ?_⟩
    · refine List.Nodup.map_on ?_ (List.nodup_range.filter _)
      intro a ha c hc e
      have ha := List.mem_range.mp (List.mem_filter.mp ha).1
      have hc := List.mem_range.mp (List.mem_filter.mp hc).1
      have e := congrArg (fun p : Fin 64 × Fin 32 => p.1.val) e
      simp only [wrapColumn_val] at e
      omega
    · rintro ⟨x, y⟩ hp hq
      obtain ⟨col, _, he⟩ := List.mem_map.mp hp
      obtain ⟨r, _, hr, _, _, _, hy⟩ := (mem_spritePoints _ _ _ _ _ _).mp hq
      have e := congrArg (fun p : Fin 64 × Fin 32 => p.2.val) he
      simp only [wrapRow_val] at e
      omega

end Sys2Proof.Machine
end

