-- ==== Sys2Proof/Laws/Encoding.lean ====
section
/-! SUPPORT. The fields of an opcode built in one of the formats of 30_encoding R92, and an opcode rebuilt from its
fields: what the two directions of decode and encode come down to. -/

namespace Sys2Proof

/-- The bits of an XYN word. -/
theorem getLsbD_formatXYN (g x y n : Nibble) (i : Nat) :
    (formatXYN g x y n).getLsbD i =
      if i < 4 then n.getLsbD i else if i < 8 then y.getLsbD (i - 4)
      else if i < 12 then x.getLsbD (i - 8) else g.getLsbD (i - 12) := by
  unfold formatXYN
  rw [BitVec.getLsbD_append, BitVec.getLsbD_append, BitVec.getLsbD_append]
  by_cases h0 : i < 4
  · simp [h0]
  · by_cases h1 : i < 8
    · simp [h0, h1, show i - 4 < 4 by omega]
    · by_cases h2 : i < 12
      · simp [h0, h1, h2, show ¬ i - 4 < 4 by omega, show i - 8 < 4 by omega, show i - 4 - 4 = i - 8 by omega]
      · simp [h0, h1, h2, show ¬ i - 4 < 4 by omega, show i - 4 - 4 = i - 8 by omega,
          show ¬ i - 8 < 4 by omega, show i - 8 - 4 = i - 12 by omega]

/-- An XKK word is the XYN word of the immediate's two nibbles. -/
theorem formatXKK_eq (g x : Nibble) (kk : Byte) :
    formatXKK g x kk = formatXYN g x (kk.extractLsb' 4 4) (kk.extractLsb' 0 4) := by
  apply BitVec.eq_of_getLsbD_eq
  intro i hi
  rw [getLsbD_formatXYN]
  unfold formatXKK
  rw [BitVec.getLsbD_append, BitVec.getLsbD_append]
  by_cases h0 : i < 4
  · simp [h0, show i < 8 by omega]
  · by_cases h1 : i < 8
    · simp [h0, h1, show i - 4 < 4 by omega, show 4 + (i - 4) = i by omega]
    · by_cases h2 : i < 12
      · simp [h0, h1, h2, show i - 8 < 4 by omega]
      · simp [h0, h1, h2, show ¬ i - 8 < 4 by omega, show i - 8 - 4 = i - 12 by omega]

/-- An NNN word is the XYN word of the address's three nibbles. -/
theorem formatNNN_eq (g : Nibble) (nnn : Addr) :
    formatNNN g nnn =
      formatXYN g (nnn.extractLsb' 8 4) (nnn.extractLsb' 4 4) (nnn.extractLsb' 0 4) := by
  apply BitVec.eq_of_getLsbD_eq
  intro i hi
  rw [getLsbD_formatXYN]
  unfold formatNNN
  rw [BitVec.getLsbD_append]
  by_cases h0 : i < 4
  · simp [h0, show i < 12 by omega]
  · by_cases h1 : i < 8
    · simp [h0, h1, show i < 12 by omega, show i - 4 < 4 by omega, show 4 + (i - 4) = i by omega]
    · by_cases h2 : i < 12
      · simp [h0, h1, h2, show i - 8 < 4 by omega, show 8 + (i - 8) = i by omega]
      · simp [h0, h1, h2]

/-- Masking an XYN word masks its nibbles. -/
theorem formatXYN_and (g x y n a b c d : Nibble) :
    formatXYN g x y n &&& formatXYN a b c d = formatXYN (g &&& a) (x &&& b) (y &&& c) (n &&& d) := by
  apply BitVec.eq_of_getLsbD_eq
  intro i _
  rw [BitVec.getLsbD_and, getLsbD_formatXYN, getLsbD_formatXYN, getLsbD_formatXYN]
  split
  · simp
  · split
    · simp
    · split <;> simp

/-! ### Fields of an XYN word -/

theorem opGroup_formatXYN (g x y n : Nibble) : opGroup (formatXYN g x y n) = g := by
  apply BitVec.eq_of_getLsbD_eq
  intro i hi
  simp only [opGroup, BitVec.getLsbD_extractLsb', getLsbD_formatXYN]
  simp [hi, show ¬ 12 + i < 4 by omega, show ¬ 12 + i < 8 by omega, show ¬ 12 + i < 12 by omega]

theorem opX_formatXYN (g x y n : Nibble) : opX (formatXYN g x y n) = x := by
  apply BitVec.eq_of_getLsbD_eq
  intro i hi
  simp only [opX, BitVec.getLsbD_extractLsb', getLsbD_formatXYN]
  simp [hi, show ¬ 8 + i < 4 by omega, show ¬ 8 + i < 8 by omega, show 8 + i < 12 by omega]

theorem opY_formatXYN (g x y n : Nibble) : opY (formatXYN g x y n) = y := by
  apply BitVec.eq_of_getLsbD_eq
  intro i hi
  simp only [opY, BitVec.getLsbD_extractLsb', getLsbD_formatXYN]
  simp [hi, show ¬ 4 + i < 4 by omega, show 4 + i < 8 by omega]

theorem opN_formatXYN (g x y n : Nibble) : opN (formatXYN g x y n) = n := by
  apply BitVec.eq_of_getLsbD_eq
  intro i hi
  simp only [opN, BitVec.getLsbD_extractLsb', getLsbD_formatXYN]
  simp [hi]

/-! ### Fields of an XKK and an NNN word -/

theorem opGroup_formatXKK (g x : Nibble) (kk : Byte) : opGroup (formatXKK g x kk) = g := by
  rw [formatXKK_eq, opGroup_formatXYN]

theorem opX_formatXKK (g x : Nibble) (kk : Byte) : opX (formatXKK g x kk) = x := by
  rw [formatXKK_eq, opX_formatXYN]

theorem opKK_formatXKK (g x : Nibble) (kk : Byte) : opKK (formatXKK g x kk) = kk := by
  apply BitVec.eq_of_getLsbD_eq
  intro i hi
  unfold opKK formatXKK
  rw [BitVec.getLsbD_extractLsb', BitVec.getLsbD_append]
  simp [hi]

theorem opGroup_formatNNN (g : Nibble) (nnn : Addr) : opGroup (formatNNN g nnn) = g := by
  rw [formatNNN_eq, opGroup_formatXYN]

theorem opNNN_formatNNN (g : Nibble) (nnn : Addr) : opNNN (formatNNN g nnn) = nnn := by
  apply BitVec.eq_of_getLsbD_eq
  intro i hi
  unfold opNNN formatNNN
  rw [BitVec.getLsbD_extractLsb', BitVec.getLsbD_append]
  simp [hi]

/-! ### A word rebuilt from its fields -/

theorem formatXYN_fields (op : Word) : formatXYN (opGroup op) (opX op) (opY op) (opN op) = op := by
  apply BitVec.eq_of_getLsbD_eq
  intro i hi
  rw [getLsbD_formatXYN]
  simp only [opGroup, opX, opY, opN, BitVec.getLsbD_extractLsb']
  split
  · simp [*]
  · split
    · simp [show i - 4 < 4 by omega, show 4 + (i - 4) = i by omega]
    · split
      · simp [show i - 8 < 4 by omega, show 8 + (i - 8) = i by omega]
      · simp [show i - 12 < 4 by omega, show 12 + (i - 12) = i by omega]

theorem formatXKK_fields (op : Word) : formatXKK (opGroup op) (opX op) (opKK op) = op := by
  apply BitVec.eq_of_getLsbD_eq
  intro i hi
  unfold formatXKK opGroup opX opKK
  rw [BitVec.getLsbD_append, BitVec.getLsbD_append]
  simp only [BitVec.getLsbD_extractLsb']
  by_cases h1 : i < 8
  · simp [h1]
  · by_cases h2 : i < 12
    · simp [h1, show i - 8 < 4 by omega, show 8 + (i - 8) = i by omega]
    · simp [h1, show ¬ i - 8 < 4 by omega, show i - 8 - 4 < 4 by omega, show 12 + (i - 8 - 4) = i by omega]

theorem formatNNN_fields (op : Word) : formatNNN (opGroup op) (opNNN op) = op := by
  apply BitVec.eq_of_getLsbD_eq
  intro i hi
  unfold formatNNN opGroup opNNN
  rw [BitVec.getLsbD_append]
  simp only [BitVec.getLsbD_extractLsb']
  by_cases h2 : i < 12
  · simp [h2]
  · simp [h2, show i - 12 < 4 by omega, show 12 + (i - 12) = i by omega]

/-- The two bytes of an opcode make the opcode again. -/
theorem opcodeOf_opcodeBytes (op : Word) :
    opcodeOf (op.extractLsb' 8 8) (op.extractLsb' 0 8) = op := by
  apply BitVec.eq_of_getLsbD_eq
  intro i hi
  unfold opcodeOf
  rw [BitVec.getLsbD_append]
  simp only [BitVec.getLsbD_extractLsb']
  by_cases h1 : i < 8
  · simp [h1]
  · simp [h1, show i - 8 < 8 by omega, show 8 + (i - 8) = i by omega]

end Sys2Proof
end

