-- ==== Sys2Proof/Laws/PerInstr.lean ====
section
/-! SUPPORT. Statements about every instruction as syntax, one lemma per constructor. Family OwnRow: the instruction's row
stands in the opcode map, and the row selects the instruction's opcode (30_encoding R104). -/

namespace Sys2Proof.Laws

/-- The instruction is well formed, and its opcode matches its own row of the opcode map. -/
def OwnRow.Statement (i : Instr) : Prop := i.WellFormed = true ∧ i.row.selects (encode i) = true

theorem selects_of_and {r : OpcodeRow} {op : Word} (h : op &&& r.mask = r.bits) : r.selects op = true := by
  unfold OpcodeRow.selects; rw [h]; exact beq_self_eq_true _

/-- The opcode under its row's mask is the row's match, as the spec's encodings say it. -/
theorem encode_and_mask {i : Instr} (h : OwnRow.Statement i) : encode i &&& i.row.mask = i.row.bits :=
  eq_of_beq h.2

theorem nibble_and_mask (a : Nibble) : a &&& 0xF#4 = a := by revert a; decide

/-- The mask keeps the group and drops the rest. -/
theorem formatXYN_and_group (g x y n : Nibble) : formatXYN g x y n &&& 0xF000 = formatXYN g 0 0 0 := by
  rw [show (0xF000 : Word) = formatXYN 0xF 0 0 0 from rfl, formatXYN_and]
  simp [nibble_and_mask]

/-- The mask keeps the group and the low nibble. -/
theorem formatXYN_and_low (g x y n : Nibble) : formatXYN g x y n &&& 0xF00F = formatXYN g 0 0 n := by
  rw [show (0xF00F : Word) = formatXYN 0xF 0 0 0xF from rfl, formatXYN_and]
  simp [nibble_and_mask]

/-- The mask keeps the group and the low byte. -/
theorem formatXYN_and_lowByte (g x y n : Nibble) : formatXYN g x y n &&& 0xF0FF = formatXYN g 0 y n := by
  rw [show (0xF0FF : Word) = formatXYN 0xF 0 0xF 0xF from rfl, formatXYN_and]
  simp [nibble_and_mask]

theorem OwnRow.cls : OwnRow.Statement .cls :=
  ⟨rfl, selects_of_and (by decide)⟩

theorem OwnRow.ret : OwnRow.Statement .ret :=
  ⟨rfl, selects_of_and (by decide)⟩

theorem OwnRow.jp (nnn : Addr) : OwnRow.Statement (.jp nnn) :=
  ⟨rfl, selects_of_and (by simp only [encode, Instr.row, formatNNN_eq, formatXYN_and_group]; rfl)⟩

theorem OwnRow.call (nnn : Addr) : OwnRow.Statement (.call nnn) :=
  ⟨rfl, selects_of_and (by simp only [encode, Instr.row, formatNNN_eq, formatXYN_and_group]; rfl)⟩

theorem OwnRow.seByte (x : Nibble) (kk : Byte) : OwnRow.Statement (.seByte x kk) :=
  ⟨rfl, selects_of_and (by simp only [encode, Instr.row, formatXKK_eq, formatXYN_and_group]; rfl)⟩

theorem OwnRow.sneByte (x : Nibble) (kk : Byte) : OwnRow.Statement (.sneByte x kk) :=
  ⟨rfl, selects_of_and (by simp only [encode, Instr.row, formatXKK_eq, formatXYN_and_group]; rfl)⟩

theorem OwnRow.seReg (x y : Nibble) : OwnRow.Statement (.seReg x y) :=
  ⟨rfl, selects_of_and (by simp only [encode, Instr.row, formatXYN_and_low]; rfl)⟩

theorem OwnRow.ldByte (x : Nibble) (kk : Byte) : OwnRow.Statement (.ldByte x kk) :=
  ⟨rfl, selects_of_and (by simp only [encode, Instr.row, formatXKK_eq, formatXYN_and_group]; rfl)⟩

theorem OwnRow.addByte (x : Nibble) (kk : Byte) : OwnRow.Statement (.addByte x kk) :=
  ⟨rfl, selects_of_and (by simp only [encode, Instr.row, formatXKK_eq, formatXYN_and_group]; rfl)⟩

theorem OwnRow.ldReg (x y : Nibble) : OwnRow.Statement (.ldReg x y) :=
  ⟨rfl, selects_of_and (by simp only [encode, Instr.row, formatXYN_and_low]; rfl)⟩

theorem OwnRow.orReg (x y : Nibble) : OwnRow.Statement (.orReg x y) :=
  ⟨rfl, selects_of_and (by simp only [encode, Instr.row, formatXYN_and_low]; rfl)⟩

theorem OwnRow.andReg (x y : Nibble) : OwnRow.Statement (.andReg x y) :=
  ⟨rfl, selects_of_and (by simp only [encode, Instr.row, formatXYN_and_low]; rfl)⟩

theorem OwnRow.xorReg (x y : Nibble) : OwnRow.Statement (.xorReg x y) :=
  ⟨rfl, selects_of_and (by simp only [encode, Instr.row, formatXYN_and_low]; rfl)⟩

theorem OwnRow.addReg (x y : Nibble) : OwnRow.Statement (.addReg x y) :=
  ⟨rfl, selects_of_and (by simp only [encode, Instr.row, formatXYN_and_low]; rfl)⟩

theorem OwnRow.subReg (x y : Nibble) : OwnRow.Statement (.subReg x y) :=
  ⟨rfl, selects_of_and (by simp only [encode, Instr.row, formatXYN_and_low]; rfl)⟩

theorem OwnRow.shr (x y : Nibble) : OwnRow.Statement (.shr x y) :=
  ⟨rfl, selects_of_and (by simp only [encode, Instr.row, formatXYN_and_low]; rfl)⟩

theorem OwnRow.subnReg (x y : Nibble) : OwnRow.Statement (.subnReg x y) :=
  ⟨rfl, selects_of_and (by simp only [encode, Instr.row, formatXYN_and_low]; rfl)⟩

theorem OwnRow.shl (x y : Nibble) : OwnRow.Statement (.shl x y) :=
  ⟨rfl, selects_of_and (by simp only [encode, Instr.row, formatXYN_and_low]; rfl)⟩

theorem OwnRow.sneReg (x y : Nibble) : OwnRow.Statement (.sneReg x y) :=
  ⟨rfl, selects_of_and (by simp only [encode, Instr.row, formatXYN_and_low]; rfl)⟩

theorem OwnRow.ldI (nnn : Addr) : OwnRow.Statement (.ldI nnn) :=
  ⟨rfl, selects_of_and (by simp only [encode, Instr.row, formatNNN_eq, formatXYN_and_group]; rfl)⟩

theorem OwnRow.jpV0 (nnn : Addr) : OwnRow.Statement (.jpV0 nnn) :=
  ⟨rfl, selects_of_and (by simp only [encode, Instr.row, formatNNN_eq, formatXYN_and_group]; rfl)⟩

theorem OwnRow.rnd (x : Nibble) (kk : Byte) : OwnRow.Statement (.rnd x kk) :=
  ⟨rfl, selects_of_and (by simp only [encode, Instr.row, formatXKK_eq, formatXYN_and_group]; rfl)⟩

theorem OwnRow.drw (x y n : Nibble) : OwnRow.Statement (.drw x y n) :=
  ⟨rfl, selects_of_and (by simp only [encode, Instr.row, formatXYN_and_group]; rfl)⟩

theorem OwnRow.skp (x : Nibble) : OwnRow.Statement (.skp x) :=
  ⟨rfl, selects_of_and (by simp only [encode, Instr.row, formatXKK_eq, formatXYN_and_lowByte]; rfl)⟩

theorem OwnRow.sknp (x : Nibble) : OwnRow.Statement (.sknp x) :=
  ⟨rfl, selects_of_and (by simp only [encode, Instr.row, formatXKK_eq, formatXYN_and_lowByte]; rfl)⟩

theorem OwnRow.ldVxDt (x : Nibble) : OwnRow.Statement (.ldVxDt x) :=
  ⟨rfl, selects_of_and (by simp only [encode, Instr.row, formatXKK_eq, formatXYN_and_lowByte]; rfl)⟩

theorem OwnRow.ldVxK (x : Nibble) : OwnRow.Statement (.ldVxK x) :=
  ⟨rfl, selects_of_and (by simp only [encode, Instr.row, formatXKK_eq, formatXYN_and_lowByte]; rfl)⟩

theorem OwnRow.ldDtVx (x : Nibble) : OwnRow.Statement (.ldDtVx x) :=
  ⟨rfl, selects_of_and (by simp only [encode, Instr.row, formatXKK_eq, formatXYN_and_lowByte]; rfl)⟩

theorem OwnRow.ldStVx (x : Nibble) : OwnRow.Statement (.ldStVx x) :=
  ⟨rfl, selects_of_and (by simp only [encode, Instr.row, formatXKK_eq, formatXYN_and_lowByte]; rfl)⟩

theorem OwnRow.addI (x : Nibble) : OwnRow.Statement (.addI x) :=
  ⟨rfl, selects_of_and (by simp only [encode, Instr.row, formatXKK_eq, formatXYN_and_lowByte]; rfl)⟩

theorem OwnRow.ldF (x : Nibble) : OwnRow.Statement (.ldF x) :=
  ⟨rfl, selects_of_and (by simp only [encode, Instr.row, formatXKK_eq, formatXYN_and_lowByte]; rfl)⟩

theorem OwnRow.ldB (x : Nibble) : OwnRow.Statement (.ldB x) :=
  ⟨rfl, selects_of_and (by simp only [encode, Instr.row, formatXKK_eq, formatXYN_and_lowByte]; rfl)⟩

theorem OwnRow.stRegs (x : Nibble) : OwnRow.Statement (.stRegs x) :=
  ⟨rfl, selects_of_and (by simp only [encode, Instr.row, formatXKK_eq, formatXYN_and_lowByte]; rfl)⟩

theorem OwnRow.ldRegs (x : Nibble) : OwnRow.Statement (.ldRegs x) :=
  ⟨rfl, selects_of_and (by simp only [encode, Instr.row, formatXKK_eq, formatXYN_and_lowByte]; rfl)⟩

end Sys2Proof.Laws
end

