-- ==== Sys2Proof/Laws/Step.lean ====
section
/-! SUPPORT. What a step can do, said once: every claim about steps follows from these cases without unfolding the
cycle. -/

namespace Sys2Proof.Machine

/-- The range check of the fetch, by where pc stands. -/
theorem State.fetch_eq (s : State) :
    (s.Fetchable → s.fetch = .ok [s.readByte s.pc.toNat, s.readByte (s.pc.toNat + 1)]) ∧
    (¬ s.Fetchable → s.fetch = .error (BitVec.ofNat 16 (max s.pc.toNat 0x1000))) := by
  unfold State.Fetchable State.fetch
  exact ⟨fun h => (State.readBlock_eq s s.pc 2).1 (.inr (by omega)),
    fun h => by rw [(State.readBlock_eq s s.pc 2).2 (by omega) (by omega)]⟩

/-- Decoding answers an instruction or names the opcode unknown. -/
theorem decode_cases (op : Word) : (∃ i, decode op = .instr i) ∨ decode op = .unknownOpcode op := by
  unfold decode decodeGroup0 decodeGroup5 decodeGroup8 decodeGroup9 decodeGroupE decodeGroupF
  repeat' split
  all_goals first | exact .inl ⟨_, rfl⟩ | exact .inr rfl

/-- What the core's move can be, when it answers a next state. -/
theorem step_cases {s t : State} (h : step s = .next t) :
    (s.halted = true ∧ t = s) ∨
    (s.halted = false ∧ s.waiting = true ∧ t = sampleKeypad s) ∨
    (s.Ready ∧ ¬ s.Fetchable ∧ t = s.raise .addressFault (BitVec.ofNat 16 (max s.pc.toNat 0x1000))) ∨
    (s.Ready ∧ s.Fetchable ∧ decode s.opcodeAtPc = .unknownOpcode s.opcodeAtPc ∧
      t = s.clearOutputs.raise .unknownOpcode s.opcodeAtPc) ∨
    (s.Ready ∧ s.Fetchable ∧ ∃ i u, decode s.opcodeAtPc = .instr i ∧ exec i s.clearOutputs = .next u ∧
      t = finishStep u) := by
  unfold step stepCycle at h
  cases hh : s.halted with
  | true => rw [hh] at h; cases h; exact .inl ⟨rfl, rfl⟩
  | false =>
    rw [hh] at h
    cases hw : s.waiting with
    | true => rw [hw] at h; cases h; exact .inr (.inl ⟨rfl, rfl, rfl⟩)
    | false =>
      rw [hw] at h
      simp only [Bool.false_eq_true, if_false, fetchAndRun] at h
      have hr : s.Ready := ⟨hh, hw⟩
      by_cases hf : s.Fetchable
      · rw [(State.fetch_eq s).1 hf] at h
        simp only [runFetched, decodeBytes, opcodeOf] at h
        change (match decode s.opcodeAtPc with | .instr i => _ | .unknownOpcode op => _ | .truncated => _) = _ at h
        rcases decode_cases s.opcodeAtPc with ⟨i, hd⟩ | hd
        · rw [hd] at h
          refine .inr (.inr (.inr (.inr ⟨hr, hf, i, ?_⟩)))
          simp only at h
          split at h
          · rename_i u hu
            cases h
            exact ⟨u, hd, hu, rfl⟩
          · cases h
          · cases h
        · rw [hd] at h
          cases h
          exact .inr (.inr (.inr (.inl ⟨hr, hf, hd, rfl⟩)))
      · rw [(State.fetch_eq s).2 hf] at h
        cases h
        exact .inr (.inr (.inl ⟨hr, hf, by simp⟩))

/-- A sampling of the keypad: a pressed key completes the suspended instruction, no key leaves the state as it is. -/
theorem sampleKeypad_cases (s : State) :
    (∃ k, s.lowestKey = some k ∧ sampleKeypad s = ({ s with waiting := false }.takeKey s.waitReg k).tickTimers) ∨
    (s.lowestKey = none ∧ sampleKeypad s = s) := by
  unfold sampleKeypad
  cases h : s.lowestKey with
  | some k => exact .inl ⟨k, rfl, rfl⟩
  | none => exact .inr ⟨rfl, rfl⟩

end Sys2Proof.Machine
end

