-- ==== Sys2Proof/Tests/Slice0.lean ====
section
/-! SUPPORT. Tests and witnesses. Expected results come from the spec: the encodings of 30_encoding R92 and R104 and the
vectors of 95_test_vectors, whose ids the comments give. A `witness_` theorem shows a concrete state and operands that meet
the hypotheses of the statement it is named after, at the boundary of each clause. -/

set_option maxRecDepth 8000

namespace Sys2Proof.Tests

open Sys2Proof Sys2Proof.Machine

/-! ### Helpers -/

/-- The state after reset about to fetch the opcode `w` at 0x200. -/
def placed (w : Nat) : State := State.reset.withFetchWord 16 w

/-- The state after one step; every step answers one. -/
def after (s : State) : State :=
  match step s with
  | .next t => t
  | .fault _ => s
  | .refused _ => s

/-- The state after executing `i`; every instruction answers one. -/
def did (i : Instr) (s : State) : State :=
  match exec i s with
  | .next t => t
  | .fault _ => s
  | .refused _ => s

/-- Index register set. -/
def withI (s : State) (i : Word) : State := { s with i := i }

/-- `sp` set to `n` calls from address `a`. -/
def withCalls (s : State) (n : Fin 17) (a : Word) : State := { s with sp := n, stack := Vector.replicate 16 a }

/-- A state halted by the illegal opcode at 0x200. -/
def dead : State := after (placed 0x5001)

/-- A state suspended in F30A at 0x200. -/
def held : State := after { placed 0xF30A with dt := 5, st := 2 }

/-! ### Ill-formed words, one for each check (R95 to R99) -/

/-- R95 (ST6): 0x01E0 is no 00E0. -/
theorem test_illegal_group0 : Opcode.legal 0x01E0 = false ∧ decode 0x01E0 = .unknownOpcode 0x01E0 := by decide
/-- R96 (S12, CF10). -/
theorem test_illegal_group5 : Opcode.legal 0x5001 = false ∧ decode 0x5121 = .unknownOpcode 0x5121 := by decide
/-- R97 (ST8) and the hole at 0xF. -/
theorem test_illegal_group8 : Opcode.legal 0x8128 = false ∧ decode 0x812F = .unknownOpcode 0x812F := by decide
/-- R96 (CF12). -/
theorem test_illegal_group9 : Opcode.legal 0x9121 = false ∧ decode 0x9121 = .unknownOpcode 0x9121 := by decide
/-- R98 (ST9). -/
theorem test_illegal_groupE : Opcode.legal 0xE59F = false ∧ decode 0xE59F = .unknownOpcode 0xE59F := by decide
/-- R99. -/
theorem test_illegal_groupF : Opcode.legal 0xFFFF = false ∧ decode 0xF133 = .instr (.ldB 1) := by decide
/-- R90: two bytes make an opcode, fewer do not, and a third belongs to the next. -/
theorem test_two_bytes : decodeBytes [0x60] = .truncated ∧ decodeBytes [0x60, 0x05, 0xFF] = .instr (.ldByte 0 5) := by
  decide
/-- The smallest and largest operands stay apart from their neighbours' rows. -/
theorem test_wellFormed : (Instr.jp 0xFFF).WellFormed = true ∧ (Instr.call 0x000).WellFormed = true := by decide

/-! ### Decoding, a word of each row written out from its encoding (R92, R104) -/

theorem test_decode_display : decode 0x00E0 = .instr .cls ∧ decode 0xD12F = .instr (.drw 0x1 0x2 0xF) := by decide
theorem test_decode_flow :
    decode 0x00EE = .instr .ret ∧ decode 0x1ABC = .instr (.jp 0xABC) ∧ decode 0x2ABC = .instr (.call 0xABC) ∧
    decode 0xBABC = .instr (.jpV0 0xABC) := by decide
theorem test_decode_skips :
    decode 0x3A7B = .instr (.seByte 0xA 0x7B) ∧ decode 0x4A7B = .instr (.sneByte 0xA 0x7B) ∧
    decode 0x5AB0 = .instr (.seReg 0xA 0xB) ∧ decode 0x9AB0 = .instr (.sneReg 0xA 0xB) := by decide
theorem test_decode_loads :
    decode 0x6A7B = .instr (.ldByte 0xA 0x7B) ∧ decode 0x7A7B = .instr (.addByte 0xA 0x7B) ∧
    decode 0x8AB0 = .instr (.ldReg 0xA 0xB) ∧ decode 0xCA7B = .instr (.rnd 0xA 0x7B) := by decide
theorem test_decode_bitwise :
    decode 0x8AB1 = .instr (.orReg 0xA 0xB) ∧ decode 0x8AB2 = .instr (.andReg 0xA 0xB) ∧
    decode 0x8AB3 = .instr (.xorReg 0xA 0xB) := by decide
theorem test_decode_arithmetic :
    decode 0x8AB4 = .instr (.addReg 0xA 0xB) ∧ decode 0x8AB5 = .instr (.subReg 0xA 0xB) ∧
    decode 0x8AB6 = .instr (.shr 0xA 0xB) ∧ decode 0x8AB7 = .instr (.subnReg 0xA 0xB) ∧
    decode 0x8ABE = .instr (.shl 0xA 0xB) := by decide
theorem test_decode_index :
    decode 0xAABC = .instr (.ldI 0xABC) ∧ decode 0xFA1E = .instr (.addI 0xA) ∧ decode 0xFA29 = .instr (.ldF 0xA) := by
  decide
theorem test_decode_memory :
    decode 0xFA33 = .instr (.ldB 0xA) ∧ decode 0xFA55 = .instr (.stRegs 0xA) ∧ decode 0xFA65 = .instr (.ldRegs 0xA) := by
  decide
theorem test_decode_keypad :
    decode 0xEA9E = .instr (.skp 0xA) ∧ decode 0xEAA1 = .instr (.sknp 0xA) ∧ decode 0xFA0A = .instr (.ldVxK 0xA) := by
  decide
theorem test_decode_timers :
    decode 0xFA07 = .instr (.ldVxDt 0xA) ∧ decode 0xFA15 = .instr (.ldDtVx 0xA) ∧ decode 0xFA18 = .instr (.ldStVx 0xA) := by
  decide
/-- The host's numbering: bit 0 is the opcode's least significant bit. -/
theorem test_table_word : decodeTableWord 16 0xD125 = some (.drw 1 2 5) ∧ decodeTableWord 16 0x8129 = none := by decide

/-! ### The step -/

/-- ST1: memory of zeros is an illegal opcode. -/
theorem test_first_step_unloaded : (after State.reset).errCode = 1 ∧ (after State.reset).errPc = 0x200 := by decide
/-- ST10: no countdown on an error. -/
theorem test_error_keeps_timers : (after { placed 0xFFFF with dt := 5, st := 5 }).dt = 5 := by decide
/-- ST12 and ST13: the value a bad fetch reports. -/
theorem test_fetch_past_end :
    (after { State.reset with pc := 0x1000 }).errValue = 0x1000 ∧ (after { State.reset with pc := 0xFFF }).errValue = 0x1000 ∧
    (after { State.reset with pc := 0x10FE }).errValue = 0x10FE := by decide
/-- ST5: an opcode that fails in decode has cleared the redraw flag. -/
theorem test_error_clears_redraw : (after { placed 0xFFFF with redraw := true }).redraw = false := by decide
/-- ST2: a halted core does nothing. -/
theorem test_halted_again : after dead = dead ∧ stepResult dead dead = .halted := ⟨rfl, rfl⟩
/-- ST15, and the image a load copies. -/
theorem test_load_copies : ((State.reset.loadProgram [0x60, 0x05]).2.readByte 0x201) = 0x05 := by decide

/-! ### Control flow -/

/-- CF1. -/
theorem test_ret : (after { withCalls (placed 0x00EE) 1 0x204 with redraw := true }).pc = 0x206 := by decide
/-- CF2. -/
theorem test_ret_empty : (after (placed 0x00EE)).errCode = 5 ∧ (after (placed 0x00EE)).errValue = 0x00EE := by decide
/-- CF3. -/
theorem test_jp : (after (placed 0x1234)).pc = 0x234 := by decide
/-- CF6: the pushed address is the call's own. -/
theorem test_call : (after (placed 0x2FFF)).entry 0 = 0x200 ∧ (after (placed 0x2FFF)).sp = 1 := by decide
/-- CF5, step 17. -/
theorem test_call_full :
    (after (withCalls (placed 0x2200) 16 0x200)).errCode = 4 ∧ (after (withCalls (placed 0x2200) 16 0x200)).errValue = 0x2200 := by
  decide
/-- CF7 and CF8. -/
theorem test_skip_immediate :
    (after ((placed 0x3342).setReg 3 0x42)).pc = 0x204 ∧ (after ((placed 0x4342).setReg 3 0x42)).pc = 0x202 := by decide
/-- CF9 and CF11. -/
theorem test_skip_registers :
    (after (((placed 0x5120).setReg 1 7).setReg 2 8)).pc = 0x202 ∧
    (after (((placed 0x9120).setReg 1 7).setReg 2 8)).pc = 0x204 := by decide
/-- CF14. -/
theorem test_jpV0_past_end : (after ((placed 0xBFFF).setReg 0 0xFF)).pc = 0x10FE := by decide

/-! ### Register loads and ALU -/

/-- A1. -/
theorem test_ldByte : (after (placed 0x6A7B)).reg 0xA = 0x7B := by decide
/-- A2, and A3 with x = F. -/
theorem test_addByte :
    (after (((placed 0x7002).setReg 0 0xFF).setReg 0xF 0x55)).reg 0xF = 0x55 ∧
    (after ((placed 0x7F03).setReg 0xF 0xFE)).reg 0xF = 0x01 := by decide
/-- A4. -/
theorem test_ldReg : (after ((placed 0x8120).setReg 2 0x33)).reg 1 = 0x33 := by decide
/-- A6 and A7. -/
theorem test_and_xor :
    (after (((placed 0x8122).setReg 1 0x3C).setReg 2 0x0F)).reg 1 = 0x0C ∧
    (after (((placed 0x8123).setReg 1 0x3C).setReg 2 0x0F)).reg 1 = 0x33 := by decide
/-- A5: VF is not reset. -/
theorem test_or_keeps_VF :
    (after ((((placed 0x8121).setReg 1 0x0F).setReg 2 0xF0).setReg 0xF 0x55)).reg 0xF = 0x55 := by decide
/-- A11, and X1 with x = F. -/
theorem test_addReg :
    (after (((placed 0x8124).setReg 1 0x80).setReg 2 0x80)).reg 0xF = 1 ∧
    (after (((placed 0x8F14).setReg 0xF 0xFF).setReg 1 0x01)).reg 0xF = 1 := by decide
/-- A13, and X3 with x = F. -/
theorem test_subReg :
    (after (((placed 0x8125).setReg 1 0x01).setReg 2 0x02)).reg 1 = 0xFF ∧
    (after (((placed 0x8F15).setReg 0xF 0x03).setReg 1 0x05)).reg 0xF = 0 := by decide
/-- A21 and A22. -/
theorem test_subnReg :
    (after (((placed 0x8127).setReg 1 0x02).setReg 2 0x01)).reg 1 = 0xFF ∧
    (after (((placed 0x8127).setReg 1 0x01).setReg 2 0x02)).reg 0xF = 1 := by decide
/-- X5, both orders. -/
theorem test_shr_VF :
    (after ((placed 0x8F06).setReg 0xF 0x03)).reg 0xF = 0 ∧
    (after { (placed 0x8F06).setReg 0xF 0x03 with params := { Config.defaultParams with vfOrder := .flagLast } }).reg 0xF = 1 := by
  decide
/-- X6, both orders. -/
theorem test_shl_VF :
    (after ((placed 0x8F0E).setReg 0xF 0x81)).reg 0xF = 2 ∧
    (after { (placed 0x8F0E).setReg 0xF 0x81 with params := { Config.defaultParams with vfOrder := .flagLast } }).reg 0xF = 1 := by
  decide
/-- A20 (y ignored) and A26. -/
theorem test_shifts :
    (after (((placed 0x81F6).setReg 1 0x05).setReg 0xF 0x80)).reg 1 = 0x02 ∧
    (after ((placed 0x810E).setReg 1 0x7F)).reg 1 = 0xFE := by decide
/-- A29: the host's byte masked. -/
theorem test_rnd : (after { placed 0xC30F with rnd := [0xA5, 0x5A] }).reg 3 = 0x05 := by decide

/-! ### Index register and memory -/

/-- M1 and M4. -/
theorem test_index :
    (after (placed 0xA300)).i = 0x300 ∧ (after ((withI (placed 0xF21E) 0xFFFF).setReg 2 0x02)).i = 0x0001 := by decide
/-- M6. -/
theorem test_ldF : (after ((placed 0xF029).setReg 0 0x0F)).i = 0x004B := by decide
/-- M7. -/
theorem test_ldF_bad : (after ((placed 0xF029).setReg 0 0x10)).errCode = 2 := by decide
/-- M8. -/
theorem test_ldB : (after ((withI (placed 0xFA33) 0x300).setReg 0xA 0x7B)).readBytes 0x300 3 = [1, 2, 3] := by decide
/-- M13. -/
theorem test_ldB_fault : (after (withI (placed 0xFA33) 0x1005)).errValue = 0x1005 := by decide
/-- M14. -/
theorem test_stRegs :
    (after ((((withI (placed 0xF255) 0x400).setReg 0 1).setReg 1 2).setReg 2 3)).readBytes 0x400 4 = [1, 2, 3, 0] := by decide
/-- M16. -/
theorem test_stRegs_fault :
    (after (withI (placed 0xF155) 0xFFF)).errValue = 0x1000 ∧ (after (withI (placed 0xF155) 0xFFF)).mem = (placed 0xF155).mem := by
  decide
/-- M18: V2 takes the third byte. -/
theorem test_ldRegs : (after (withI ((placed 0xF265).writeBytes 0x300 [1, 2, 3]) 0x300)).reg 2 = 3 := by decide
/-- M19: the font's first byte, from memory that lists nothing there. -/
theorem test_ldRegs_font : (after (withI (placed 0xF065) 0x000)).reg 0 = 0xF0 := by decide

/-! ### Display -/

/-- A framebuffer with the top left pixel lit. -/
def litFb : Framebuffer := State.reset.fb.set 0 ((Vector.replicate 32 false).set 0 true)

/-- D1 and R301: a lit pixel goes off. -/
theorem test_cls :
    (after { placed 0x00E0 with fb := litFb }).fb.pixel 0 0 = false ∧ (after (placed 0x00E0)).redraw = true := by decide
/-- D4: the sprite wraps at the right edge. -/
theorem test_drw_wraps :
    (after ((withI ((placed 0xD121).writeByte 0x300 0xFF) 0x300).setReg 1 63)).fb.pixel 63 0 = true ∧
    (after ((withI ((placed 0xD121).writeByte 0x300 0xFF) 0x300).setReg 1 63)).fb.pixel 6 0 = true ∧
    (after ((withI ((placed 0xD121).writeByte 0x300 0xFF) 0x300).setReg 1 63)).fb.pixel 7 0 = false := by decide
/-- D3: the pixel goes off and VF is the collision. -/
theorem test_drw_collides :
    (after { withI ((placed 0xD121).writeByte 0x300 0x80) 0x300 with fb := litFb }).reg 0xF = 1 ∧
    (after { withI ((placed 0xD121).writeByte 0x300 0x80) 0x300 with fb := litFb }).fb.pixel 0 0 = false := by decide

/-! ### Keypad and timers -/

/-- K1 and K2, key 3 pressed. -/
theorem test_key_skips :
    (after { (placed 0xE59E).setReg 5 3 with keypad := 0x0008 }).pc = 0x204 ∧
    (after { (placed 0xE5A1).setReg 5 3 with keypad := 0x0008 }).pc = 0x202 := by decide
/-- K3 and K4. -/
theorem test_key_faults :
    (after ((placed 0xE59E).setReg 5 0x10)).errCode = 7 ∧ (after ((placed 0xE5A1).setReg 5 0xFF)).errValue = 0xFF := by decide
/-- K6: keys 4 and 9 pressed. -/
theorem test_ldVxK : (after { placed 0xF30A with keypad := 0x0210 }).reg 3 = 4 := by decide
/-- K7, then K8. -/
theorem test_ldVxK_waits :
    held.waiting = true ∧ held.dt = 5 ∧ (after { held with keypad := 0x0400 }).reg 3 = 0x0A ∧
    (after { held with keypad := 0x0400 }).dt = 4 ∧ (after { held with keypad := 0x0400 }).pc = 0x202 := by decide
/-- K5. -/
theorem test_ldVxDt : (after { placed 0xF107 with dt := 3 }).reg 1 = 3 ∧ (after { placed 0xF107 with dt := 3 }).dt = 2 := by
  decide
/-- K9. -/
theorem test_ldDtVx : (after ((placed 0xF015).setReg 0 5)).dt = 4 := by decide
/-- K11: sound even for 1. -/
theorem test_ldStVx :
    (after ((placed 0xF018).setReg 0 1)).st = 0 ∧ (after ((placed 0xF018).setReg 0 1)).soundActive = true := by decide

/-! ### Witnesses of the statements' hypotheses -/

/-- A session in a phase. -/
def session (p : Phase) (s : State) : Session := { core := s, phase := p }

theorem witness_InitialiseSetsEveryField : (session .unready { State.reset with waiting := true }).suspended = false := by
  decide
/-- After a failed load, the case in which the ban on stepping is lifted. -/
theorem witness_RepeatedInitialiseReopensLaunch : (session .loadFailed State.reset).suspended = false := by decide
theorem witness_LoadProgramCopiesImage :
    3584 < (List.replicate 3585 (0x11 : Byte)).length ∧ (List.replicate 3584 (0x11 : Byte)).length ≤ 3584 := by
  simp only [List.length_replicate]; decide
theorem witness_LoadBoundaryAndEmptyImage :
    (List.replicate 3584 (0x11 : Byte)).length = 3584 ∧ 3585 ≤ (List.replicate 3585 (0x11 : Byte)).length := by
  simp only [List.length_replicate]; decide
theorem witness_HostOrderRefused :
    (session .unready held).phase = .unready ∧ (session .loadFailed State.reset).phase = .loadFailed ∧
    ((session .loaded State.reset).phase = .loaded ∧ State.reset.waiting = false) ∧
    ((session .stepped held).phase = .stepped ∧ held.waiting = true) := by decide
theorem witness_OnlyInitialiseClearsTheLatch :
    dead.halted = true ∧ Move.step ≠ .initialise ∧
    (session .stepped dead).run .step = .next (session .stepped dead, .step .halted) :=
  ⟨by decide, by decide, rfl⟩
theorem witness_DecodeAgreesWithOpcodeMap : Opcode.legal 0x8F0E = true ∧ Opcode.legal 0x8F0F = false := by decide
theorem witness_OpcodeRowsDisjoint :
    Instr.cls.row ∈ opcodeMap ∧ Instr.cls.row.selects 0x00E0 = true := by decide
theorem witness_StepRunsDecodedInstruction :
    (placed 0x6A7B).Ready ∧ (placed 0x6A7B).Fetchable ∧ decode (placed 0x6A7B).opcodeAtPc = .instr (.ldByte 0xA 0x7B) := by
  unfold State.Ready State.Fetchable; decide
theorem witness_FetchReadsOrFaults :
    (State.Ready { State.reset with pc := 0xFFE } ∧ (State.pc { State.reset with pc := 0xFFE }).toNat + 1 ≤ 0xFFF) ∧
    (State.Ready { State.reset with pc := 0xFFF } ∧ 0xFFF < (State.pc { State.reset with pc := 0xFFF }).toNat + 1) := by
  unfold State.Ready; decide
theorem witness_UnknownOpcodeLatches :
    (placed 0x5001).Ready ∧ (placed 0x5001).Fetchable ∧ Opcode.legal (placed 0x5001).opcodeAtPc = false := by
  unfold State.Ready State.Fetchable; decide
theorem witness_HaltedStepDoesNothing : dead.halted = true := by decide
theorem witness_WaitingStepSamplesKeypad :
    (held.halted = false ∧ held.waiting = true ∧ ∀ k, k < 16 → held.keypad.getLsbD k = false) ∧
    ((held.driveKeypad 0x8000).halted = false ∧ (held.driveKeypad 0x8000).waiting = true ∧
      (held.driveKeypad 0x8000).keypad.getLsbD 15 = true ∧
      ∀ j, j < 15 → (held.driveKeypad 0x8000).keypad.getLsbD j = false) := by decide
theorem witness_TimersCountDownEachStep :
    (State.halted { held with keypad := 1 } = false ∧ State.waiting { held with keypad := 1 } = true ∧
      (after { held with keypad := 1 }).halted = false ∧ (after { held with keypad := 1 }).waiting = false) ∧
    ((placed 0xF015).waiting = false ∧ decode (placed 0xF015).opcodeAtPc = .instr (.ldDtVx 0) ∧
      (after (placed 0xF015)).halted = false ∧ (after (placed 0xF015)).waiting = false) := by decide
theorem witness_ErrorsArePrecise :
    (placed 0x5001).halted = false ∧ step (placed 0x5001) = .next dead ∧ dead.halted = true :=
  ⟨by decide, rfl, by decide⟩
theorem witness_ExecuteRaisesOnlyItsError :
    (placed 0x00EE).halted = false ∧ exec .ret (placed 0x00EE) = .next (did .ret (placed 0x00EE)) ∧
    (did .ret (placed 0x00EE)).halted = true :=
  ⟨by decide, rfl, by decide⟩
theorem witness_StepNeverWritesKeypad : step held = .next held :=
  rfl
theorem witness_PlacedWordIsFetched : 65535 < 65536 := by decide
theorem witness_ReadGivesLastWrite : 0xFFF ≤ 0xFFF := by decide
theorem witness_OnlyBcdAndStoreWriteMemory :
    exec .cls State.reset = .next (did .cls State.reset) ∧ Instr.cls ≠ .ldB 0 ∧ Instr.cls ≠ .stRegs 0 :=
  ⟨rfl, by decide, by decide⟩
theorem witness_StackAndFramebufferWriters :
    exec (.jp 0x300) State.reset = .next (did (.jp 0x300) State.reset) ∧ Instr.jp 0x300 ≠ .ret ∧ Instr.jp 0x300 ≠ .cls :=
  ⟨rfl, by decide, by decide⟩
theorem witness_RegisterWritersNamed :
    exec (.addReg 1 2) State.reset = .next (did (.addReg 1 2) State.reset) ∧ (2 : Nibble) ∉ (Instr.addReg 1 2).writesRegs :=
  ⟨rfl, by decide⟩
theorem witness_ReturnPopsCallAddress :
    0 < (withCalls State.reset 1 0x204).sp.val ∧ (withCalls State.reset 0 0x204).sp.val = 0 := by decide
theorem witness_CallPushesItsAddress :
    (withCalls State.reset 15 0x204).sp.val < 16 ∧ (withCalls State.reset 16 0x204).sp.val = 16 := by decide
theorem witness_CallThenReturnResumes :
    (withCalls State.reset 15 0x204).sp.val < 16 ∧
    exec (.call 0x300) (withCalls State.reset 15 0x204) = .next (did (.call 0x300) (withCalls State.reset 15 0x204)) :=
  ⟨by decide, rfl⟩
theorem witness_AddRegistersWithCarry : (0xE : Nibble) ≠ 0xF := by decide
theorem witness_SubtractionsWithNotBorrow : (0x0 : Nibble) ≠ 0xF := by decide
theorem witness_ShiftsUnderBothOrders :
    State.reset.params.vfOrder = .seqListed ∧
    State.params { State.reset with params := { Config.defaultParams with vfOrder := .flagLast } } ≠ State.reset.params := by
  decide
theorem witness_RandomByteMasked :
    State.rnd { State.reset with rnd := [0xA5] } = 0xA5 :: [] ∧ State.reset.rnd = [] := by decide
theorem witness_GlyphAddressOrInvalidDigit :
    ((State.reset.setReg 0 0x0F).reg 0).toNat ≤ 0xF ∧ 0xF < ((State.reset.setReg 0 0x10).reg 0).toNat := by decide
theorem witness_BcdStoresDigits :
    (withI State.reset 0xFFD).i.toNat + 2 ≤ 0xFFF ∧ 0xFFF < (withI State.reset 0xFFE).i.toNat + 2 := by decide
theorem witness_StoreRegistersToMemory :
    (withI State.reset 0xFF0).i.toNat + (0xF : Nibble).toNat ≤ 0xFFF ∧
    0xFFF < (withI State.reset 0xFFF).i.toNat + (0x1 : Nibble).toNat := by decide
theorem witness_LoadRegistersFromMemory :
    ((withI State.reset 0xFF0).i.toNat + (0xF : Nibble).toNat ≤ 0xFFF ∧ (0x1 : Nibble).toNat < (0x2 : Nibble).toNat) ∧
    0xFFF < (withI State.reset 0xFF1).i.toNat + (0xF : Nibble).toNat := by decide
theorem witness_StoreThenLoadRestoresRegisters :
    (withI State.reset 0x300).i.toNat + (0x2 : Nibble).toNat ≤ 0xFFF ∧
    exec (.stRegs 2) (withI State.reset 0x300) = .next (did (.stRegs 2) (withI State.reset 0x300)) ∧
    exec (.ldRegs 2) { did (.stRegs 2) (withI State.reset 0x300) with v := Vector.replicate 16 7 } =
      .next (did (.ldRegs 2) { did (.stRegs 2) (withI State.reset 0x300) with v := Vector.replicate 16 7 }) :=
  ⟨by decide, rfl, rfl⟩

/-- A state about to draw the one-row sprite 0x80 at (0, 0). -/
def drawing : State := withI (State.reset.writeByte 0x300 0x80) 0x300

theorem drawing_covers : drawing.Covers 1 2 1 0 0 := ⟨0, 0, by decide, by decide, by decide, by decide, by decide⟩
theorem drawing_covers_only (px : Fin 64) (py : Fin 32) (h : drawing.Covers 1 2 1 px py) : px = 0 ∧ py = 0 := by
  obtain ⟨row, col, hr, hc, hb, hx, hy⟩ := h
  have hr : row = 0 := by simpa using hr
  subst hr
  have key : ∀ c, c < 8 → drawing.spriteBit 0 c = true → c = 0 := by decide
  have hc := key col hc hb
  subst hc
  exact ⟨Fin.ext (hx.trans (by decide)), Fin.ext (hy.trans (by decide))⟩
/-- The clause in which VF ends 1: the covered pixel is lit. -/
theorem witness_DrawTogglesCoveredPixels_lit :
    State.Covers { drawing with fb := litFb } 1 2 1 0 0 ∧ litFb.pixel 0 0 = true := ⟨drawing_covers, by decide⟩
/-- The clause in which VF ends 0: no covered pixel is lit. -/
theorem witness_DrawTogglesCoveredPixels_unlit :
    ∀ px py, drawing.Covers 1 2 1 px py → drawing.fb.pixel px py = false := by
  intro px py h
  obtain ⟨rfl, rfl⟩ := drawing_covers_only px py h
  decide
theorem witness_DrawTogglesCoveredPixels :
    ((0 : Nibble) = 0 ∨ (withI State.reset 0x1000).i.toNat + 0 - 1 ≤ 0xFFF) ∧
    (withI State.reset 0xFFF).i.toNat + (1 : Nibble).toNat - 1 ≤ 0xFFF ∧
    ((2 : Nibble) ≠ 0 ∧ 0xFFF < (withI State.reset 0xFFF).i.toNat + (2 : Nibble).toNat - 1) := by decide
theorem witness_DrawTwiceRestores :
    ((1 : Nibble) ≠ 0xF ∧ (2 : Nibble) ≠ 0xF ∧ drawing.i.toNat + (1 : Nibble).toNat - 1 ≤ 0xFFF) ∧
    exec (.drw 1 2 1) drawing = .next (did (.drw 1 2 1) drawing) ∧
    exec (.drw 1 2 1) (did (.drw 1 2 1) drawing) = .next (did (.drw 1 2 1) (did (.drw 1 2 1) drawing)) ∧
    drawing.fb.pixel 0 0 = false :=
  ⟨by decide, rfl, rfl, by decide⟩
/-- The clause in which the second draw leaves VF at 0: every covered pixel is lit. -/
theorem witness_DrawTwiceRestores_lit :
    ∀ px py, State.Covers { drawing with fb := litFb } 1 2 1 px py → litFb.pixel px py = true := by
  intro px py h
  obtain ⟨rfl, rfl⟩ := drawing_covers_only px py h
  decide
theorem witness_KeySkips :
    ((State.reset.setReg 5 0x0F).reg 5).toNat ≤ 0xF ∧ 0xF < ((State.reset.setReg 5 0x10).reg 5).toNat := by decide
theorem witness_WaitForKeyEntry :
    ((State.reset.driveKeypad 0x8001).keypad.getLsbD 0 = true ∧
      ∀ j, j < 0 → (State.reset.driveKeypad 0x8001).keypad.getLsbD j = false) ∧
    ((State.reset.driveKeypad 0x8000).keypad.getLsbD 15 = true ∧
      ∀ j, j < 15 → (State.reset.driveKeypad 0x8000).keypad.getLsbD j = false) ∧
    ∀ k, k < 16 → State.reset.keypad.getLsbD k = false := by decide
theorem witness_ReadDelayTimer :
    (placed 0xF107).Ready ∧ (placed 0xF107).Fetchable ∧ decode (placed 0xF107).opcodeAtPc = .instr (.ldVxDt 1) := by
  unfold State.Ready State.Fetchable; decide
theorem witness_WriteDelayTimer :
    (placed 0xF015).Ready ∧ (placed 0xF015).Fetchable ∧ decode (placed 0xF015).opcodeAtPc = .instr (.ldDtVx 0) := by
  unfold State.Ready State.Fetchable; decide
theorem witness_WriteSoundTimer :
    (placed 0xF018).Ready ∧ (placed 0xF018).Fetchable ∧ decode (placed 0xF018).opcodeAtPc = .instr (.ldStVx 0) := by
  unfold State.Ready State.Fetchable; decide
theorem witness_StepKeepsMemoryCanonical :
    (placed 0x6A7B).MemoryCanonical ∧ step (placed 0x6A7B) = .next (after (placed 0x6A7B)) :=
  ⟨by unfold State.MemoryCanonical; decide, rfl⟩
theorem witness_StepKeepsPcBounded :
    (placed 0x2FFF).PcBounded ∧ step (placed 0x2FFF) = .next (after (placed 0x2FFF)) :=
  ⟨by unfold State.PcBounded; decide, rfl⟩
theorem witness_StepKeepsLatchSound :
    (placed 0x5001).LatchSound ∧ step (placed 0x5001) = .next dead ∧ dead.LatchSound :=
  ⟨by unfold State.LatchSound; decide, rfl, by unfold State.LatchSound; decide⟩
theorem witness_StepKeepsWaitSound :
    held.WaitSound ∧ held.waiting = true ∧ step held = .next held :=
  ⟨by unfold State.WaitSound State.Fetchable; decide, by decide, rfl⟩

end Sys2Proof.Tests
end

section
/-! The command `initialize` (70_reset R420): what each read of the state it leaves returns, and when a session admits
it. -/

namespace Sys2Proof.Machine

@[simp] theorem State.reg_initialise (s : State) (r : Nibble) : s.initialise.reg r = 0x00 := by
  simp [State.reg, State.initialise, State.reset]

@[simp] theorem State.entry_initialise (s : State) (j : Nat) : s.initialise.entry j = 0x0000 := by
  unfold State.entry
  split
  · simp [State.initialise, State.reset]
  · rfl

@[simp] theorem State.pixel_initialise (s : State) (x : Fin 64) (y : Fin 32) :
    s.initialise.fb.pixel x y = false :=
  Framebuffer.pixel_blank x y

/-- No byte is listed after `initialize`, so every address reads as an unlisted one. -/
theorem State.readByte_initialise (s : State) (a : Nat) :
    s.initialise.readByte a = Memory.unlisted s.params.font a := rfl

theorem Memory.unlisted_of_lt {font : Vector Byte 80} {a : Nat} (h : a < 80) :
    Memory.unlisted font a = font[a] := dif_pos h

theorem Memory.unlisted_of_le {font : Vector Byte 80} {a : Nat} (h : 80 ≤ a) :
    Memory.unlisted font a = 0x00 := dif_neg (Nat.not_lt.mpr h)

/-- `initialize` is admitted whenever no step is in progress (20_memory R72), and leaves the phase `fresh`. -/
theorem Session.run_initialise {σ : Session} (h : σ.suspended = false) :
    σ.run .initialise = .next ({ core := σ.core.initialise, phase := .fresh }, .none) := by
  simp [Session.run, h]

/-- Settles O1: the session's answer is `Session.run_initialise`; registers, stack entries, pixels and memory are read
by the lemmas above, and every other field is the one `initialise` writes or keeps. -/
theorem initialiseSetsEveryField : Obligations.InitialiseSetsEveryField := by
  refine ⟨fun σ h => ⟨.fresh, Session.run_initialise h, fun _ => rfl⟩, ?_⟩
  rintro s t rfl
  have font_bytes (a : Nat) (h : a < 80) : s.initialise.readByte a = s.params.font[a] :=
    (s.readByte_initialise a).trans (Memory.unlisted_of_lt h)
  have zero_bytes (a : Nat) (h : 80 ≤ a) (_ : a ≤ 0xFFF) : s.initialise.readByte a = 0x00 :=
    (s.readByte_initialise a).trans (Memory.unlisted_of_le h)
  exact ⟨s.reg_initialise, rfl, rfl, rfl, fun j _ => s.entry_initialise j, rfl, rfl, s.pixel_initialise,
    font_bytes, zero_bytes, rfl, rfl, rfl, rfl, rfl, rfl, rfl, rfl, rfl, rfl, rfl, rfl⟩

end Sys2Proof.Machine
end

section
/-! SUPPORT. Every instruction stands in its own row of the opcode map, its constructors' lemmas put together. -/

namespace Sys2Proof.Laws

theorem ownRow : ∀ i : Instr, OwnRow.Statement i
  | .cls => OwnRow.cls
  | .ret => OwnRow.ret
  | .jp nnn => OwnRow.jp nnn
  | .call nnn => OwnRow.call nnn
  | .seByte x kk => OwnRow.seByte x kk
  | .sneByte x kk => OwnRow.sneByte x kk
  | .seReg x y => OwnRow.seReg x y
  | .ldByte x kk => OwnRow.ldByte x kk
  | .addByte x kk => OwnRow.addByte x kk
  | .ldReg x y => OwnRow.ldReg x y
  | .orReg x y => OwnRow.orReg x y
  | .andReg x y => OwnRow.andReg x y
  | .xorReg x y => OwnRow.xorReg x y
  | .addReg x y => OwnRow.addReg x y
  | .subReg x y => OwnRow.subReg x y
  | .shr x y => OwnRow.shr x y
  | .subnReg x y => OwnRow.subnReg x y
  | .shl x y => OwnRow.shl x y
  | .sneReg x y => OwnRow.sneReg x y
  | .ldI nnn => OwnRow.ldI nnn
  | .jpV0 nnn => OwnRow.jpV0 nnn
  | .rnd x kk => OwnRow.rnd x kk
  | .drw x y n => OwnRow.drw x y n
  | .skp x => OwnRow.skp x
  | .sknp x => OwnRow.sknp x
  | .ldVxDt x => OwnRow.ldVxDt x
  | .ldVxK x => OwnRow.ldVxK x
  | .ldDtVx x => OwnRow.ldDtVx x
  | .ldStVx x => OwnRow.ldStVx x
  | .addI x => OwnRow.addI x
  | .ldF x => OwnRow.ldF x
  | .ldB x => OwnRow.ldB x
  | .stRegs x => OwnRow.stRegs x
  | .ldRegs x => OwnRow.ldRegs x

/-- The opcode of an instruction is legal (30_encoding R102): its own row selects it. -/
theorem legal_encode (i : Instr) : Opcode.legal (encode i) = true := by
  obtain ⟨hmem, hsel⟩ := ownRow i
  exact List.any_eq_true.mpr ⟨i.row, List.contains_iff_mem.mp hmem, hsel⟩

end Sys2Proof.Laws
end

section
/-! SUPPORT. Encoding undoes decoding: the instruction that a word decodes to has that word as its opcode. One lemma per
group that looks past the high nibble (30_encoding R94 to R100). -/

namespace Sys2Proof

theorem formatNNN_of_opGroup {op : Word} {g : Nibble} (hg : opGroup op = g) : formatNNN g (opNNN op) = op :=
  hg ▸ formatNNN_fields op

theorem formatXKK_of_opGroup {op : Word} {g : Nibble} (hg : opGroup op = g) :
    formatXKK g (opX op) (opKK op) = op :=
  hg ▸ formatXKK_fields op

theorem formatXKK_of_opKK {op : Word} {g : Nibble} {kk : Byte} (hg : opGroup op = g) (hk : opKK op = kk) :
    formatXKK g (opX op) kk = op :=
  hk ▸ formatXKK_of_opGroup hg

theorem formatXYN_of_opN {op : Word} {g n : Nibble} (hg : opGroup op = g) (hn : opN op = n) :
    formatXYN g (opX op) (opY op) n = op :=
  hg ▸ hn ▸ formatXYN_fields op

theorem encode_of_decodeGroup0 {op : Word} {i : Instr} (h : decodeGroup0 op = .instr i) : encode i = op := by
  unfold decodeGroup0 at h
  split at h <;> cases h <;> rfl

theorem encode_of_decodeGroup5 {op : Word} {i : Instr} (hg : opGroup op = 0x5) (h : decodeGroup5 op = .instr i) :
    encode i = op := by
  unfold decodeGroup5 at h
  split at h <;> cases h
  exact formatXYN_of_opN hg ‹_›

theorem encode_of_decodeGroup8 {op : Word} {i : Instr} (hg : opGroup op = 0x8) (h : decodeGroup8 op = .instr i) :
    encode i = op := by
  unfold decodeGroup8 at h
  split at h <;> cases h <;> exact formatXYN_of_opN hg ‹_›

theorem encode_of_decodeGroup9 {op : Word} {i : Instr} (hg : opGroup op = 0x9) (h : decodeGroup9 op = .instr i) :
    encode i = op := by
  unfold decodeGroup9 at h
  split at h <;> cases h
  exact formatXYN_of_opN hg ‹_›

theorem encode_of_decodeGroupE {op : Word} {i : Instr} (hg : opGroup op = 0xE) (h : decodeGroupE op = .instr i) :
    encode i = op := by
  unfold decodeGroupE at h
  split at h <;> cases h <;> exact formatXKK_of_opKK hg ‹_›

theorem encode_of_decodeGroupF {op : Word} {i : Instr} (hg : opGroup op = 0xF) (h : decodeGroupF op = .instr i) :
    encode i = op := by
  unfold decodeGroupF at h
  split at h <;> cases h <;> exact formatXKK_of_opKK hg ‹_›

theorem encode_of_decode {op : Word} {i : Instr} (h : decode op = .instr i) : encode i = op := by
  unfold decode at h
  split at h
  case h_1 => exact encode_of_decodeGroup0 h
  case h_2 | h_3 | h_11 | h_12 => cases h; exact formatNNN_of_opGroup ‹_›
  case h_4 | h_5 | h_7 | h_8 | h_13 => cases h; exact formatXKK_of_opGroup ‹_›
  case h_6 => exact encode_of_decodeGroup5 ‹_› h
  case h_9 => exact encode_of_decodeGroup8 ‹_› h
  case h_10 => exact encode_of_decodeGroup9 ‹_› h
  case h_14 => cases h; exact formatXYN_of_opN ‹_› rfl
  case h_15 => exact encode_of_decodeGroupE ‹_› h
  case h_16 => exact encode_of_decodeGroupF ‹_› h
  case h_17 => cases h

end Sys2Proof
end

section
/-! SUPPORT. What a match under a mask says of a word's fields, and that a word which a row of the opcode map selects
decodes to an instruction of that row (30_encoding R94 to R100, R104). -/

namespace Sys2Proof

theorem OpcodeRow.and_mask_of_selects {r : OpcodeRow} {op : Word} (h : r.selects op = true) : op &&& r.mask = r.bits :=
  eq_of_beq h

theorem eq_of_and_ffff {op bits : Word} (h : op &&& 0xFFFF = bits) : op = bits :=
  BitVec.and_allOnes.symm.trans h

/-- The fact behind the three fields below: a field that the mask covers whole is the match's own. -/
theorem extractLsb'_of_and {op mask bits : Word} {start len : Nat} (h : op &&& mask = bits)
    (hm : mask.extractLsb' start len = BitVec.allOnes len) : op.extractLsb' start len = bits.extractLsb' start len := by
  rw [← h, BitVec.extractLsb'_and, hm, BitVec.and_allOnes]

theorem opGroup_of_and {op mask bits : Word} (h : op &&& mask = bits) (hm : opGroup mask = 0xF) :
    opGroup op = opGroup bits :=
  extractLsb'_of_and h hm

theorem opN_of_and {op mask bits : Word} (h : op &&& mask = bits) (hm : opN mask = 0xF) : opN op = opN bits :=
  extractLsb'_of_and h hm

theorem opKK_of_and {op mask bits : Word} (h : op &&& mask = bits) (hm : opKK mask = 0xFF) : opKK op = opKK bits :=
  extractLsb'_of_and h hm

/-- The row of the opcode map that an answer of the decoder stands for; an unknown opcode has none. -/
def Decoded.row? : Decoded → Option OpcodeRow
  | .instr i => some i.row
  | .unknownOpcode _ => none
  | .truncated => none

theorem Decoded.row?_eq_some {d : Decoded} {r : OpcodeRow} : d.row? = some r ↔ ∃ i, d = .instr i ∧ i.row = r := by
  cases d <;> simp [Decoded.row?]

/-- A word selected by an instruction's row decodes to an instruction of that row: the mask covers the fields that the
decoder looks at, the whole word, the group alone, or the group with the low nibble or byte. -/
theorem row?_decode_of_row_selects {op : Word} (i : Instr) (h : i.row.selects op = true) :
    (decode op).row? = some i.row := by
  have hand := OpcodeRow.and_mask_of_selects h
  cases i with
  | cls | ret =>
    rw [eq_of_and_ffff hand]
    rfl
  | jp | call | seByte | sneByte | ldByte | addByte | ldI | jpV0 | rnd | drw =>
    dsimp only [Instr.row] at hand
    unfold decode
    rw [opGroup_of_and hand rfl]
    rfl
  | seReg | ldReg | orReg | andReg | xorReg | addReg | subReg | shr | subnReg | shl | sneReg =>
    dsimp only [Instr.row] at hand
    unfold decode decodeGroup5 decodeGroup8 decodeGroup9
    rw [opGroup_of_and hand rfl, opN_of_and hand rfl]
    rfl
  | skp | sknp | ldVxDt | ldVxK | ldDtVx | ldStVx | addI | ldF | ldB | stRegs | ldRegs =>
    dsimp only [Instr.row] at hand
    unfold decode decodeGroupE decodeGroupF
    rw [opGroup_of_and hand rfl, opKK_of_and hand rfl]
    rfl

/-- Every row of the map is some instruction's: the one its match, read as an opcode, decodes to. -/
theorem exists_row_eq {r : OpcodeRow} (hr : r ∈ opcodeMap) : ∃ i : Instr, i.row = r := by
  have rows_of_matches : ∀ q ∈ opcodeMap, (decode q.bits).row? = some q := by decide
  obtain ⟨i, -, hi⟩ := Decoded.row?_eq_some.mp (rows_of_matches r hr)
  exact ⟨i, hi⟩

theorem row?_decode_of_selects {op : Word} {r : OpcodeRow} (hr : r ∈ opcodeMap) (h : r.selects op = true) :
    (decode op).row? = some r := by
  obtain ⟨i, rfl⟩ := exists_row_eq hr
  exact row?_decode_of_row_selects i h

end Sys2Proof
end

section
/-! The opcode map and the decoder agree (30_encoding R94 to R104). -/

namespace Sys2Proof.Machine

/-- Settles O8: a row that selects the word is the row of what the word decodes to, which encodes to the word again; and
a word that decodes to an instruction is that instruction's opcode, so it is legal. -/
theorem decodeAgreesWithOpcodeMap : Obligations.DecodeAgreesWithOpcodeMap := by
  refine fun op => ⟨fun hlegal => ?_, fun hillegal => ?_⟩
  · obtain ⟨r, hmem, hsel⟩ := List.any_eq_true.mp hlegal
    obtain ⟨i, hdec, rfl⟩ := Decoded.row?_eq_some.mp (row?_decode_of_selects hmem hsel)
    exact ⟨i, hdec, encode_of_decode hdec, hsel⟩
  · refine (decode_cases op).resolve_left fun ⟨i, hdec⟩ => ?_
    have hlegal : Opcode.legal op = true := encode_of_decode hdec ▸ Laws.legal_encode i
    exact Bool.false_ne_true (hillegal.symm.trans hlegal)

/-- Settles O9: each of the two rows is the row of what the word decodes to, and a word decodes to one thing. -/
theorem opcodeRowsDisjoint : Obligations.OpcodeRowsDisjoint := by
  intro op r q hr hq hsr hsq
  have same_row : some r = some q := (row?_decode_of_selects hr hsr).symm.trans (row?_decode_of_selects hq hsq)
  exact Option.some.inj same_row

end Sys2Proof.Machine
end

section
/-! SUPPORT. The step cycle (40_step_cycle R120), stage by stage: what the step is in a halted, a suspended and a ready
state, what execute can leave, and what stage 5 makes of it. -/

namespace Sys2Proof.Machine

/-! ### The step by the state it starts from -/

theorem step_of_halted {s : State} (h : s.halted = true) : step s = .next s := if_pos h

theorem step_of_waiting {s : State} (running : s.halted = false) (suspended : s.waiting = true) :
    step s = .next (sampleKeypad s) := by
  simp [step, stepCycle, running, suspended]

theorem step_of_ready {s : State} (h : s.Ready) : step s = fetchAndRun s := by
  obtain ⟨running, awake⟩ := h
  simp [step, stepCycle, running, awake]

theorem step_of_not_fetchable {s : State} (hr : s.Ready) (hf : ¬ s.Fetchable) :
    step s = .next (s.raise .addressFault (BitVec.ofNat 16 (max s.pc.toNat 0x1000))) := by
  rw [step_of_ready hr, fetchAndRun, (State.fetch_eq s).2 hf]

theorem step_of_fetchable {s : State} (hr : s.Ready) (hf : s.Fetchable) :
    step s = runFetched [s.readByte s.pc.toNat, s.readByte (s.pc.toNat + 1)] s := by
  rw [step_of_ready hr, fetchAndRun, (State.fetch_eq s).1 hf]

/-- The fetched bytes decode as the opcode at pc (R121). -/
theorem decodeBytes_fetched (s : State) :
    decodeBytes [s.readByte s.pc.toNat, s.readByte (s.pc.toNat + 1)] = decode s.opcodeAtPc := rfl

theorem step_of_unknownOpcode {s : State} {op : Word} (hr : s.Ready) (hf : s.Fetchable)
    (hd : decode s.opcodeAtPc = .unknownOpcode op) : step s = .next (s.clearOutputs.raise .unknownOpcode op) := by
  rw [step_of_fetchable hr hf, runFetched, decodeBytes_fetched, hd]

/-! ### Execute -/

@[simp] theorem State.dtLeftBy_clearOutputs (s : State) (i : Instr) : s.clearOutputs.dtLeftBy i = s.dtLeftBy i := by
  cases i <;> rfl

@[simp] theorem State.stLeftBy_clearOutputs (s : State) (i : Instr) : s.clearOutputs.stLeftBy i = s.stLeftBy i := by
  cases i <;> rfl

/-- Execute raised the error the instruction's rule names: only the latch was written (R370, R379). -/
def ExecRaises (i : Instr) (s t : State) : Prop :=
  ∃ e value, i.executeError = some (ErrorKind.code e) ∧ t = s.raise e value

/-- Execute raised nothing: the latch stays as it was, and each timer holds what the instruction leaves (R33, R34). -/
def ExecCompletes (i : Instr) (s t : State) : Prop :=
  t.halted = s.halted ∧ t.dt = s.dtLeftBy i ∧ t.st = s.stLeftBy i

/-- What execute can do, when it answers a next state. The cases group the instructions by the check their meaning makes
before it writes; those with no check complete. -/
theorem exec_cases {i : Instr} {s t : State} (h : exec i s = .next t) : ExecRaises i s t ∨ ExecCompletes i s t := by
  cases i
  case ret =>
    simp only [exec, execRet] at h
    split at h <;> cases h
    · exact .inl ⟨_, _, rfl, rfl⟩
    · next hpop =>
      obtain ⟨-, -, rfl⟩ := State.pop?_some hpop
      exact .inr ⟨rfl, rfl, rfl⟩
  case call =>
    simp only [exec, execCall] at h
    split at h <;> cases h
    · exact .inl ⟨_, _, rfl, rfl⟩
    · next hpush =>
      obtain ⟨-, rfl⟩ := State.push?_some hpush
      exact .inr ⟨rfl, rfl, rfl⟩
  case skp | sknp | ldF =>
    simp only [exec, execSkp, execSknp, execLdF] at h
    split at h <;> cases h
    · exact .inr ⟨rfl, rfl, rfl⟩
    · exact .inl ⟨_, _, rfl, rfl⟩
  case ldB | stRegs =>
    simp only [exec, execLdB, execStRegs] at h
    split at h <;> cases h
    · exact .inl ⟨_, _, rfl, rfl⟩
    · next hwrite =>
      rw [State.writeBlock_ok hwrite, State.writeBytes_eq]
      exact .inr ⟨rfl, rfl, rfl⟩
  case ldRegs =>
    simp only [exec, execLdRegs] at h
    split at h <;> cases h
    · exact .inl ⟨_, _, rfl, rfl⟩
    · rw [State.setRegsFrom_eq]
      exact .inr ⟨rfl, rfl, rfl⟩
  case drw =>
    simp only [exec, execDrw] at h
    split at h <;> cases h
    · exact .inl ⟨_, _, rfl, rfl⟩
    · exact .inr ⟨rfl, rfl, rfl⟩
  case ldVxK | shr | shl =>
    simp only [exec, execLdVxK, execShr, execShl] at h
    split at h <;> cases h <;> exact .inr ⟨rfl, rfl, rfl⟩
  all_goals
    cases h
    exact .inr ⟨rfl, rfl, rfl⟩

/-! ### Stage 5 -/

@[simp] theorem finishStep_halted (t : State) : (finishStep t).halted = t.halted := by
  unfold finishStep; split <;> rfl

@[simp] theorem finishStep_waiting (t : State) : (finishStep t).waiting = t.waiting := by
  unfold finishStep; split <;> rfl

theorem finishStep_of_halted {t : State} (h : t.halted = true) : finishStep t = t := by
  simp [finishStep, h]

theorem finishStep_of_ready {t : State} (h : t.Ready) : finishStep t = t.tickTimers := by
  obtain ⟨running, awake⟩ := h
  simp [finishStep, running, awake]

/-! ### A step that raises an error, and a step that completes -/

/-- A step that newly halts raised an error: on the state it found where the fetch failed (R121), else on that state
with its outputs cleared (R122). -/
theorem step_raises {s t : State} (running : s.halted = false) (h : step s = .next t) (halts : t.halted = true) :
    ∃ e value, t = s.raise e value ∨ t = s.clearOutputs.raise e value := by
  rcases step_cases h with ⟨hs, -⟩ | ⟨-, -, rfl⟩ | ⟨-, -, rfl⟩ | ⟨-, -, -, rfl⟩ | ⟨-, -, i, u, -, hexec, rfl⟩
  · simp [hs] at running
  · rcases sampleKeypad_cases s with ⟨k, -, hkey⟩ | ⟨-, hnone⟩
    · simp [hkey, running] at halts
    · simp [hnone, running] at halts
  · exact ⟨_, _, .inl rfl⟩
  · exact ⟨_, _, .inr rfl⟩
  · rcases exec_cases hexec with ⟨e, value, -, rfl⟩ | ⟨hkept, -, -⟩
    · exact ⟨e, value, .inr (finishStep_of_halted rfl)⟩
    · simp [hkept, running] at halts

/-- `t` is what stage 5 makes of timers that hold `dt` and `st` (R129, R130, R131). -/
def State.CountedFrom (t : State) (dt st : Byte) : Prop :=
  t.dt.toNat = dt.toNat - 1 ∧ t.st.toNat = st.toNat - 1 ∧ t.soundActive = decide (st ≠ 0)

theorem tickTimers_countedFrom (s : State) : s.tickTimers.CountedFrom s.dt s.st :=
  ⟨toNat_countDown s.dt, toNat_countDown s.st, rfl⟩

/-- A sampling that ends the suspension counts the timers down (R342). -/
theorem sampleKeypad_countedFrom {s : State} (suspended : s.waiting = true)
    (resumed : (sampleKeypad s).waiting = false) : (sampleKeypad s).CountedFrom s.dt s.st := by
  rcases sampleKeypad_cases s with ⟨k, -, hkey⟩ | ⟨-, hnone⟩
  · rw [hkey]
    exact tickTimers_countedFrom ({ s with waiting := false }.takeKey s.waitReg k)
  · simp [hnone, suspended] at resumed

/-- Stages 4 and 5 of a step that completes count the timers down from what the instruction left (R132). -/
theorem finishStep_countedFrom {i : Instr} {s u : State} (hexec : exec i s = .next u) (hu : u.Ready) :
    (finishStep u).CountedFrom (s.dtLeftBy i) (s.stLeftBy i) := by
  rcases exec_cases hexec with ⟨e, value, -, rfl⟩ | ⟨-, hdt, hst⟩
  · cases hu.1
  · rw [finishStep_of_ready hu, ← hdt, ← hst]
    exact tickTimers_countedFrom u

end Sys2Proof.Machine
end

section
/-! The step cycle (40_step_cycle R121 to R134). -/

namespace Sys2Proof.Machine

/-- Settles O12: `State.fetch_eq` reads the bytes, and where it faults the address is pc or, with pc = 0xFFF, 0x1000. -/
theorem fetchReadsOrFaults : Obligations.FetchReadsOrFaults := by
  refine fun s hr => ⟨fun hf => ⟨(State.fetch_eq s).1 hf, decodeBytes_fetched s⟩, fun hf => ?_⟩
  have fault_address : BitVec.ofNat 16 (max s.pc.toNat 0x1000) = if 0xFFF < s.pc.toNat then s.pc else 0x1000 := by
    split
    · rw [Nat.max_eq_left (by omega), BitVec.ofNat_toNat, BitVec.setWidth_eq]
    · rw [Nat.max_eq_right (by omega)]; rfl
  rw [step_of_not_fetchable hr (Nat.not_le.mpr hf), fault_address]
  rfl

/-- Settles O13: an illegal word decodes to no instruction (`decodeAgreesWithOpcodeMap`). -/
theorem unknownOpcodeLatches : Obligations.UnknownOpcodeLatches :=
  fun s hr hf hillegal => step_of_unknownOpcode hr hf ((decodeAgreesWithOpcodeMap s.opcodeAtPc).2 hillegal)

/-- Settles O14: the step and its result both test `halted` first (R134). -/
theorem haltedStepDoesNothing : Obligations.HaltedStepDoesNothing :=
  fun _ h => ⟨step_of_halted h, if_pos h⟩

/-- Settles O16: a resumed step is a sampling that found a key, a fetched one ends in stage 5 on what its instruction
left; any other step ends halted or suspended. -/
theorem timersCountDownEachStep : Obligations.TimersCountDownEachStep := by
  intro s t running h completed resumed
  refine ⟨fun suspended => ?_, fun i awake hd => ?_⟩
  · obtain rfl : sampleKeypad s = t :=
      Host.Outcome.next.inj ((step_of_waiting running suspended).symm.trans h)
    exact sampleKeypad_countedFrom suspended resumed
  · rcases step_cases h with ⟨hs, -⟩ | ⟨-, hw, -⟩ | ⟨-, -, rfl⟩ | ⟨-, -, -, rfl⟩ | ⟨-, -, j, u, hj, hexec, rfl⟩
    · simp [hs] at running
    · simp [hw] at awake
    · cases completed
    · cases completed
    · obtain rfl : j = i := Decoded.instr.inj (hj.symm.trans hd)
      have counted := finishStep_countedFrom hexec ⟨by simpa using completed, by simpa using resumed⟩
      rwa [State.dtLeftBy_clearOutputs, State.stLeftBy_clearOutputs] at counted

/-- Settles O18: by `step_raises` the state after the step is the latch written over the state before it, with the
outputs cleared or not. -/
theorem errorsArePrecise : Obligations.ErrorsArePrecise := by
  intro s t running h halts
  obtain ⟨e, value, rfl | rfl⟩ := step_raises running h halts
  · exact ⟨rfl, fun _ => rfl, rfl⟩
  · exact ⟨rfl, fun _ => rfl, rfl⟩

end Sys2Proof.Machine
end

section
/-! SUPPORT. Control flow (41_control_flow R150): the conditions under which the call stack answers, where pc stands after
a jump or a skip, and what the skips, the return and the call do. -/

namespace Sys2Proof.Machine

/-! ### Call stack -/

theorem State.push?_of_lt {s : State} (w : Word) (h : s.sp.val < 16) :
    s.push? w = some { s with stack := s.stack.set s.sp.val w h, sp := ⟨s.sp.val + 1, by omega⟩ } :=
  dif_pos h

theorem State.push?_of_full {s : State} (w : Word) (h : s.sp.val = 16) : s.push? w = none :=
  dif_neg (by omega)

theorem State.pop?_of_pos {s : State} (h : 0 < s.sp.val) :
    s.pop? = some (s.entry (s.sp.val - 1), { s with sp := ⟨s.sp.val - 1, by omega⟩ }) := by
  have below_size : s.sp.val - 1 < 16 := by omega
  rw [State.pop?, dif_pos h, State.entry, dif_pos below_size]

theorem State.pop?_of_empty {s : State} (h : s.sp.val = 0) : s.pop? = none :=
  dif_neg (by omega)

/-- After a push the entry at the old stack pointer is the pushed word, and every other entry is as it was. -/
theorem State.entry_of_push? {s t : State} {w : Word} (h : s.push? w = some t) (j : Nat) :
    t.entry j = if j = s.sp.val then w else s.entry j := by
  obtain ⟨hsp, rfl⟩ := State.push?_some h
  unfold State.entry
  by_cases hj : j < 16
  · simp only [dif_pos hj, Vector.getElem_set, eq_comm]
  · have above : j ≠ s.sp.val := by omega
    rw [dif_neg hj, dif_neg hj, if_neg above]

/-! ### Program counter -/

theorem toNat_zextAddr (nnn : Addr) : (zextAddr nnn).toNat = nnn.toNat :=
  BitVec.toNat_setWidth_of_le (by decide)

theorem toNat_zextByte (b : Byte) : (zextByte b).toNat = b.toNat :=
  BitVec.toNat_setWidth_of_le (by decide)

/-- The greatest sum, 0xFFF + 0xFF = 0x10FE, stays inside 16 bits. -/
theorem toNat_zextAddr_add_zextByte (nnn : Addr) (b : Byte) :
    (zextAddr nnn + zextByte b).toNat = nnn.toNat + b.toNat := by
  have hnnn := nnn.isLt
  have hb := b.isLt
  rw [BitVec.toNat_add, toNat_zextAddr, toNat_zextByte, Nat.mod_eq_of_lt (by omega)]

theorem State.onlyRegsAndPc_jumpTo (s : State) (target : Word) : s.OnlyRegsAndPc (s.jumpTo target) [] :=
  ⟨fun _ _ => rfl, fun _ => rfl, rfl⟩

theorem State.onlyRegsAndPc_skipIf (s : State) (c : Bool) : s.OnlyRegsAndPc (s.skipIf c) [] :=
  ⟨fun _ _ => rfl, fun _ => rfl, rfl⟩

/-- The skip in terms of the condition `p` that its Boolean tests. -/
theorem State.pc_skipIf_of_iff {s : State} {c : Bool} {p : Prop} [Decidable p] (h : c = true ↔ p) :
    (s.skipIf c).pc = s.pc + if p then 4 else 2 := by
  by_cases hp : p
  · rw [State.skipIf_pc, if_pos hp, if_pos (h.mpr hp)]
  · rw [State.skipIf_pc, if_neg hp, if_neg (mt h.mp hp)]

/-! ### The skips, the return and the call -/

/-- An instruction whose meaning is `State.skipIf` advances pc by 4 or by 2 (R125), and changes nothing else. -/
theorem skips_of_exec {i : Instr} {s : State} {c : Bool} {p : Prop} [Decidable p]
    (hexec : exec i s = .next (s.skipIf c)) (hc : c = true ↔ p) :
    ∃ t, exec i s = .next t ∧ t.pc = s.pc + (if p then 4 else 2) ∧ s.OnlyRegsAndPc t [] :=
  ⟨s.skipIf c, hexec, State.pc_skipIf_of_iff hc, s.onlyRegsAndPc_skipIf c⟩

theorem exec_ret_of_pop? {s t : State} {w : Word} (h : s.pop? = some (w, t)) :
    exec .ret s = .next (t.jumpTo w).advance := by
  rw [exec, execRet, h]

theorem exec_ret_of_empty {s : State} (h : s.sp.val = 0) :
    exec .ret s = .next (s.raise .stackUnderflow (encode .ret)) := by
  rw [exec, execRet, State.pop?_of_empty h]

theorem exec_call_of_push? {s t : State} (nnn : Addr) (h : s.push? s.pc = some t) :
    exec (.call nnn) s = .next (t.jumpTo (zextAddr nnn)) := by
  rw [exec, execCall, h]

theorem exec_call_of_full {s : State} (nnn : Addr) (h : s.sp.val = 16) :
    exec (.call nnn) s = .next (s.raise .stackOverflow (encode (.call nnn))) := by
  rw [exec, execCall, State.push?_of_full s.pc h]

end Sys2Proof.Machine
end

section
/-! Control flow (41_control_flow R151 to R158). The encoding lines are the instructions' own rows of the opcode map
(`Laws.encode_and_mask`). -/

namespace Sys2Proof.Machine

/-- Settles O26: `State.pop?` answers the entry below the stack pointer and lowers the pointer, or nothing at sp = 0. -/
theorem returnPopsCallAddress : Obligations.ReturnPopsCallAddress :=
  ⟨rfl, fun _ =>
    ⟨fun hpos => ⟨_, exec_ret_of_pop? (State.pop?_of_pos hpos), rfl, rfl, fun _ _ => rfl, fun _ => rfl, rfl⟩,
      exec_ret_of_empty⟩⟩

/-- Settles O27: zero-extension keeps the address's value. -/
theorem jumpSetsPc : Obligations.JumpSetsPc :=
  fun s nnn => ⟨Laws.encode_and_mask (Laws.OwnRow.jp nnn), _, rfl, toNat_zextAddr nnn, s.onlyRegsAndPc_jumpTo _⟩

/-- Settles O28: below sp = 16 the push writes the one entry (`State.entry_of_push?`) and raises the pointer, and the jump
writes pc only; at sp = 16 the push answers nothing. -/
theorem callPushesItsAddress : Obligations.CallPushesItsAddress := by
  refine fun s nnn => ⟨Laws.encode_and_mask (Laws.OwnRow.call nnn), fun hroom => ?_, exec_call_of_full nnn⟩
  have hpush := State.push?_of_lt s.pc hroom
  have own_entry := (State.entry_of_push? hpush s.sp.val).trans (if_pos rfl)
  have other_entries (j : Nat) (hj : j ≠ s.sp.val) := (State.entry_of_push? hpush j).trans (if_neg hj)
  exact ⟨_, exec_call_of_push? nnn hpush, own_entry, rfl, toNat_zextAddr nnn, other_entries, fun _ _ => rfl,
    fun _ => rfl, rfl⟩

/-- Settles O30: all four are `State.skipIf`, under a test of equality or of its negation. -/
theorem registerSkips : Obligations.RegisterSkips :=
  fun _ x y kk =>
    ⟨⟨Laws.encode_and_mask (Laws.OwnRow.seByte x kk), skips_of_exec rfl beq_iff_eq⟩,
      ⟨Laws.encode_and_mask (Laws.OwnRow.sneByte x kk), skips_of_exec rfl bne_iff_ne⟩,
      ⟨Laws.encode_and_mask (Laws.OwnRow.seReg x y), skips_of_exec rfl beq_iff_eq⟩,
      ⟨Laws.encode_and_mask (Laws.OwnRow.sneReg x y), skips_of_exec rfl bne_iff_ne⟩⟩

/-- Settles O31: the sum of a 12-bit address and a byte does not wrap in 16 bits. -/
theorem jumpOffsetAddsV0 : Obligations.JumpOffsetAddsV0 :=
  fun s nnn => ⟨Laws.encode_and_mask (Laws.OwnRow.jpV0 nnn), _, rfl, toNat_zextAddr_add_zextByte nnn (s.reg 0),
    s.onlyRegsAndPc_jumpTo _⟩

end Sys2Proof.Machine
end

section
/-! SUPPORT. Register writes (42_register_alu R200): what the state holds after an instruction that writes one register,
or one register and VF in either order, and advances; and the values of the ALU's flags and shifts as numbers. -/

namespace Sys2Proof.Machine

/-! ### Registers and frame -/

@[simp] theorem State.reg_advance (s : State) (r : Nibble) : s.advance.reg r = s.reg r := rfl

@[simp] theorem State.reg_setReg_same (s : State) (x : Nibble) (b : Byte) : (s.setReg x b).reg x = b :=
  (s.reg_setReg x x b).trans (if_pos rfl)

theorem State.reg_setReg_of_ne {s : State} {x r : Nibble} (b : Byte) (h : r ≠ x) : (s.setReg x b).reg r = s.reg r :=
  (s.reg_setReg x r b).trans (if_neg h)

@[simp] theorem State.reg_setVF_same (s : State) (b : Byte) : (s.setVF b).reg 0xF = b :=
  s.reg_setReg_same 0xF b

theorem State.reg_setVF_of_ne {s : State} {r : Nibble} (b : Byte) (h : r ≠ 0xF) : (s.setVF b).reg r = s.reg r :=
  State.reg_setReg_of_ne b h

theorem State.onlyRegsAndPc_refl (s : State) (dst : List Nibble) : s.OnlyRegsAndPc s dst :=
  ⟨fun _ _ => rfl, fun _ => rfl, rfl⟩

theorem State.OnlyRegsAndPc.advance {s t : State} {dst : List Nibble} (h : s.OnlyRegsAndPc t dst) :
    s.OnlyRegsAndPc t.advance dst := h

theorem State.OnlyRegsAndPc.setReg {s t : State} {dst : List Nibble} {x : Nibble} (h : s.OnlyRegsAndPc t dst)
    (hx : x ∈ dst) (b : Byte) : s.OnlyRegsAndPc (t.setReg x b) dst := by
  obtain ⟨regs, memory, fields⟩ := h
  refine ⟨fun r hr => ?_, memory, fields⟩
  have other : r ≠ x := fun e => hr (e ▸ hx)
  rw [State.reg_setReg_of_ne b other, regs r hr]

/-! ### The shapes of the register instructions -/

/-- An instruction that writes one register and advances. -/
theorem writesReg_of_exec {i : Instr} {s : State} {x : Nibble} {b : Byte}
    (hexec : exec i s = .next (s.setReg x b).advance) :
    ∃ t, exec i s = .next t ∧ t.reg x = b ∧ t.pc = s.pc + 2 ∧ s.OnlyRegsAndPc t [x] :=
  ⟨_, hexec, s.reg_setReg_same x b, rfl, ((s.onlyRegsAndPc_refl [x]).setReg (by simp) b).advance⟩

theorem State.onlyRegsAndPc_setReg_setVF (s : State) (x : Nibble) (b f : Byte) :
    s.OnlyRegsAndPc ((s.setReg x b).setVF f) [x, 0xF] :=
  ((s.onlyRegsAndPc_refl _).setReg (by simp) b).setReg (by simp) f

theorem State.onlyRegsAndPc_setVF_setReg (s : State) (x : Nibble) (b f : Byte) :
    s.OnlyRegsAndPc ((s.setVF f).setReg x b) [x, 0xF] :=
  ((s.onlyRegsAndPc_refl _).setReg (by simp) f).setReg (by simp) b

/-- An instruction that writes one register, then VF, and advances: VF ends as the flag also when it is the register. -/
theorem writesRegThenVF_of_exec {i : Instr} {s : State} {x : Nibble} {b f : Byte}
    (hexec : exec i s = .next ((s.setReg x b).setVF f).advance) :
    ∃ t, exec i s = .next t ∧ (x ≠ 0xF → t.reg x = b) ∧ t.reg 0xF = f ∧ t.pc = s.pc + 2 ∧
      s.OnlyRegsAndPc t [x, 0xF] :=
  ⟨_, hexec, fun hx => (State.reg_setVF_of_ne f hx).trans (s.reg_setReg_same x b),
    (s.setReg x b).reg_setVF_same f, rfl, s.onlyRegsAndPc_setReg_setVF x b f⟩

/-- An instruction that applies `op` to V[x] and gives VF the byte `f` in the order VF_ORDER names (R212): with x = 0xF
the listed order applies `op` to `f`, the other order keeps `f`. -/
theorem writesInVfOrder_of_exec {i : Instr} {s : State} {x : Nibble} {f : Byte} {op : Byte → Byte}
    (flag_first : s.params.vfOrder = .seqListed →
      exec i s = .next ((s.setVF f).setReg x (op ((s.setVF f).reg x))).advance)
    (flag_last : s.params.vfOrder = .flagLast → exec i s = .next ((s.setReg x (op (s.reg x))).setVF f).advance) :
    ∃ t, exec i s = .next t ∧ t.pc = s.pc + 2 ∧ s.OnlyRegsAndPc t [x, 0xF] ∧
      (x ≠ 0xF → t.reg x = op (s.reg x)) ∧ (x ≠ 0xF → t.reg 0xF = f) ∧
      (x = 0xF → s.params.vfOrder = .seqListed → t.reg 0xF = op f) ∧
      (x = 0xF → s.params.vfOrder = .flagLast → t.reg 0xF = f) := by
  cases order : s.params.vfOrder with
  | seqListed =>
    refine ⟨_, flag_first order, rfl, s.onlyRegsAndPc_setVF_setReg x _ f,
      fun hx => ?_, fun hx => ?_, fun hx _ => ?_, nofun⟩
    · rw [State.reg_advance, State.reg_setReg_same, State.reg_setVF_of_ne f hx]
    · rw [State.reg_advance, State.reg_setReg_of_ne _ hx.symm, State.reg_setVF_same]
    · subst hx
      rw [State.reg_advance, State.reg_setReg_same, State.reg_setVF_same]
  | flagLast =>
    obtain ⟨t, hexec, reg_x, flag, hpc, frame⟩ := writesRegThenVF_of_exec (flag_last order)
    exact ⟨t, hexec, hpc, frame, reg_x, fun _ => flag, nofun, fun _ _ => flag⟩

/-! ### Flags and shifts as numbers -/

theorem flagByte_decide (p : Prop) [Decidable p] : flagByte (decide p) = bit01 p := by
  simp only [flagByte, bit01, decide_eq_true_eq]

theorem flagByte_carryOf (a b : Byte) : flagByte (carryOf a b) = bit01 (255 < a.toNat + b.toNat) :=
  flagByte_decide _

theorem flagByte_noBorrow (a b : Byte) : flagByte (noBorrow a b) = bit01 (b.toNat ≤ a.toNat) :=
  flagByte_decide _

theorem toNat_sub_byte (a b : Byte) : (a - b).toNat = (a.toNat + 256 - b.toNat) % 256 := by
  have hb := b.isLt
  rw [BitVec.toNat_sub]
  omega

theorem toNat_shiftRight_one (a : Byte) : (a >>> 1).toNat = a.toNat / 2 := by
  rw [BitVec.toNat_ushiftRight, Nat.shiftRight_eq_div_pow]

theorem toNat_shiftLeft_one (a : Byte) : (a <<< 1).toNat = 2 * a.toNat % 256 := by
  rw [BitVec.toNat_shiftLeft, Nat.shiftLeft_eq, Nat.mul_comm]

theorem toNat_shiftedOutRight (a : Byte) : (shiftedOutRight a).toNat = a.toNat % 2 :=
  (BitVec.toNat_and a 1).trans (Nat.and_one_is_mod a.toNat)

theorem toNat_shiftedOutLeft (a : Byte) : (shiftedOutLeft a).toNat = a.toNat / 128 := by
  rw [shiftedOutLeft, BitVec.toNat_ushiftRight, Nat.shiftRight_eq_div_pow]

/-- The bit shifted out to the right, shifted again, is gone (R212). -/
theorem shiftedOutRight_shiftRight_one (a : Byte) : shiftedOutRight a >>> 1 = 0 := by
  apply BitVec.eq_of_toNat_eq
  rw [toNat_shiftRight_one, toNat_shiftedOutRight]
  exact Nat.div_eq_of_lt (Nat.mod_lt _ (by decide))

/-- The bit shifted out to the left, shifted again, is doubled without loss (R212). -/
theorem toNat_shiftedOutLeft_shiftLeft_one (a : Byte) :
    (shiftedOutLeft a <<< 1).toNat = 2 * (a.toNat / 128) := by
  have ha := a.isLt
  rw [toNat_shiftLeft_one, toNat_shiftedOutLeft]
  omega

end Sys2Proof.Machine
end

section
/-! Register loads and the ALU (42_register_alu R201 to R212). The encoding lines are the instructions' own rows of the
opcode map (`Laws.encode_and_mask`); each instruction's effect is the lemma about its shape. -/

namespace Sys2Proof.Machine

theorem exec_shr_of_seqListed {s : State} (x y : Nibble) (order : s.params.vfOrder = .seqListed) :
    exec (.shr x y) s = .next ((s.setVF (shiftedOutRight (s.reg x))).setReg x
      ((s.setVF (shiftedOutRight (s.reg x))).reg x >>> 1)).advance := by
  rw [exec, execShr, order]

theorem exec_shr_of_flagLast {s : State} (x y : Nibble) (order : s.params.vfOrder = .flagLast) :
    exec (.shr x y) s = .next ((s.setReg x (s.reg x >>> 1)).setVF (shiftedOutRight (s.reg x))).advance := by
  rw [exec, execShr, order]

theorem exec_shl_of_seqListed {s : State} (x y : Nibble) (order : s.params.vfOrder = .seqListed) :
    exec (.shl x y) s = .next ((s.setVF (shiftedOutLeft (s.reg x))).setReg x
      ((s.setVF (shiftedOutLeft (s.reg x))).reg x <<< 1)).advance := by
  rw [exec, execShl, order]

theorem exec_shl_of_flagLast {s : State} (x y : Nibble) (order : s.params.vfOrder = .flagLast) :
    exec (.shl x y) s = .next ((s.setReg x (s.reg x <<< 1)).setVF (shiftedOutLeft (s.reg x))).advance := by
  rw [exec, execShl, order]

/-- Settles O36: both shifts write in the order VF_ORDER names; what is left is to read the bytes as numbers. -/
theorem shiftsUnderBothOrders : Obligations.ShiftsUnderBothOrders := by
  refine fun s x y => ⟨⟨Laws.encode_and_mask (Laws.OwnRow.shr x y), ?_⟩,
    ⟨Laws.encode_and_mask (Laws.OwnRow.shl x y), ?_⟩⟩
  · obtain ⟨t, hexec, hpc, frame, reg_x, flag, listed, last⟩ := writesInVfOrder_of_exec (op := (· >>> 1))
      (exec_shr_of_seqListed (s := s) x y) (exec_shr_of_flagLast x y)
    exact ⟨t, hexec, hpc, frame, fun hx => ⟨reg_x hx ▸ toNat_shiftRight_one _, flag hx ▸ toNat_shiftedOutRight _⟩,
      fun hx order => (listed hx order).trans (shiftedOutRight_shiftRight_one _),
      fun hx order => last hx order ▸ toNat_shiftedOutRight _⟩
  · obtain ⟨t, hexec, hpc, frame, reg_x, flag, listed, last⟩ := writesInVfOrder_of_exec (op := (· <<< 1))
      (exec_shl_of_seqListed (s := s) x y) (exec_shl_of_flagLast x y)
    exact ⟨t, hexec, hpc, frame, fun hx => ⟨reg_x hx ▸ toNat_shiftLeft_one _, flag hx ▸ toNat_shiftedOutLeft _⟩,
      fun hx order => listed hx order ▸ toNat_shiftedOutLeft_shiftLeft_one _,
      fun hx order => last hx order ▸ toNat_shiftedOutLeft _⟩

/-- Settles O32: all five write V[x] alone. -/
theorem loadsAndBitwise : Obligations.LoadsAndBitwise :=
  fun _ x y kk =>
    ⟨⟨Laws.encode_and_mask (Laws.OwnRow.ldByte x kk), writesReg_of_exec rfl⟩,
      ⟨Laws.encode_and_mask (Laws.OwnRow.ldReg x y), writesReg_of_exec rfl⟩,
      ⟨Laws.encode_and_mask (Laws.OwnRow.orReg x y), writesReg_of_exec rfl⟩,
      ⟨Laws.encode_and_mask (Laws.OwnRow.andReg x y), writesReg_of_exec rfl⟩,
      ⟨Laws.encode_and_mask (Laws.OwnRow.xorReg x y), writesReg_of_exec rfl⟩⟩

/-- Settles O33: V[x] alone is written, with the 8-bit sum. -/
theorem addByteWraps : Obligations.AddByteWraps := by
  refine fun s x kk => ⟨Laws.encode_and_mask (Laws.OwnRow.addByte x kk), ?_⟩
  obtain ⟨t, hexec, reg_x, hpc, frame⟩ := writesReg_of_exec (i := .addByte x kk) (s := s) rfl
  exact ⟨t, hexec, reg_x ▸ BitVec.toNat_add _ _, hpc, frame⟩

/-- Settles O34: the 8-bit sum is written first and the carry, taken from the operands before it, last. -/
theorem addRegistersWithCarry : Obligations.AddRegistersWithCarry := by
  refine fun s x y => ⟨Laws.encode_and_mask (Laws.OwnRow.addReg x y), ?_⟩
  obtain ⟨t, hexec, reg_x, flag, hpc, frame⟩ := writesRegThenVF_of_exec (i := .addReg x y) (s := s) rfl
  exact ⟨t, hexec, fun hx => reg_x hx ▸ BitVec.toNat_add _ _, flag.trans (flagByte_carryOf _ _), hpc, frame⟩

/-- An instruction that writes the difference of two bytes, then VF as NOT borrow (R208, R210). -/
theorem subtracts_of_exec {i : Instr} {s : State} {x : Nibble} {a b : Byte}
    (hexec : exec i s = .next ((s.setReg x (a - b)).setVF (flagByte (noBorrow a b))).advance) :
    ∃ t, exec i s = .next t ∧ (x ≠ 0xF → (t.reg x).toNat = (a.toNat + 256 - b.toNat) % 256) ∧
      t.reg 0xF = bit01 (b.toNat ≤ a.toNat) ∧ t.pc = s.pc + 2 ∧ s.OnlyRegsAndPc t [x, 0xF] := by
  obtain ⟨t, hexec, reg_x, flag, hpc, frame⟩ := writesRegThenVF_of_exec hexec
  exact ⟨t, hexec, fun hx => reg_x hx ▸ toNat_sub_byte a b, flag.trans (flagByte_noBorrow a b), hpc, frame⟩

/-- Settles O35: 8xy7 is 8xy5 with the operands exchanged. -/
theorem subtractionsWithNotBorrow : Obligations.SubtractionsWithNotBorrow :=
  fun _ x y =>
    ⟨⟨Laws.encode_and_mask (Laws.OwnRow.subReg x y), subtracts_of_exec rfl⟩,
      ⟨Laws.encode_and_mask (Laws.OwnRow.subnReg x y), subtracts_of_exec rfl⟩⟩

end Sys2Proof.Machine
end

section
/-! SUPPORT. Index register and memory accesses (43_index_memory R250): what the state holds after an instruction that
sets I, after a block of bytes is stored from I on, and after registers are loaded from there, and the error it latches
where it cannot. -/

namespace Sys2Proof.Machine

/-! ### Index register -/

/-- An instruction that gives I the value `n` and advances changes nothing else. -/
theorem setsIndex_of_exec {i : Instr} {s : State} {w : Word} {n : Nat}
    (hexec : exec i s = .next { s with i := w }.advance) (hw : w.toNat = n) :
    ∃ t, exec i s = .next t ∧ t.i.toNat = n ∧ t.pc = s.pc + 2 ∧ s.KeepsRegs t [] ∧ s.KeepsMemory t ∧
      { t with i := s.i, pc := s.pc } = s :=
  ⟨_, hexec, hw, rfl, fun _ _ => rfl, fun _ => rfl, rfl⟩

theorem toNat_add_zextByte (w : Word) (b : Byte) : (w + zextByte b).toNat = (w.toNat + b.toNat) % 65536 := by
  rw [BitVec.toNat_add, toNat_zextByte]

/-- The greatest product, 0xFF * 5 = 0x4FB, stays inside 16 bits. -/
theorem toNat_glyphAddr (b : Byte) : (glyphAddr b).toNat = b.toNat * 5 := by
  have hb := b.isLt
  have product : (glyphAddr b).toNat = b.toNat * 5 % 65536 := by
    rw [glyphAddr, BitVec.toNat_mul, toNat_zextByte]
    rfl
  omega

theorem exec_ldF_of_digit {s : State} {x : Nibble} (h : (s.reg x).toNat ≤ 0xF) :
    exec (.ldF x) s = .next { s with i := glyphAddr (s.reg x) }.advance :=
  if_pos (decide_eq_true h)

theorem exec_ldF_of_not_digit {s : State} {x : Nibble} (h : 0xF < (s.reg x).toNat) :
    exec (.ldF x) s = .next (s.latched 2 (BitVec.ofNat 16 (s.reg x).toNat)) := by
  have not_digit : ¬ isDigit (s.reg x) = true := fun hd => Nat.not_le.mpr h (of_decide_eq_true hd)
  rw [exec, execLdF, if_neg not_digit, BitVec.ofNat_toNat]
  rfl

/-! ### Storing a block from I on -/

/-- What Fx33 and Fx55 do with the bytes they store: write them from I on and advance, or raise `AddressFault`. -/
def storeAtIndex (bs : List Byte) (s : State) : Host.Outcome State Fault Refusal :=
  match s.writeBlock s.i bs with
  | .error a => .next (s.raise .addressFault a)
  | .ok t => .next t.advance

theorem exec_ldB (x : Nibble) (s : State) : exec (.ldB x) s = storeAtIndex (bcdDigits (s.reg x)) s := rfl

theorem exec_stRegs (x : Nibble) (s : State) : exec (.stRegs x) s = storeAtIndex (s.regsUpTo x) s := rfl

theorem storeAtIndex_of_fits {bs : List Byte} {s : State} (h : s.i.toNat + bs.length ≤ 0x1000) :
    storeAtIndex bs s = .next (s.writeBytes s.i.toNat bs).advance := by
  rw [storeAtIndex, (s.writeBlock_eq s.i bs).1 (by omega)]

theorem storeAtIndex_of_past_end {bs : List Byte} {s : State} (hbs : 0 < bs.length)
    (h : 0x1000 < s.i.toNat + bs.length) :
    storeAtIndex bs s = .next (s.latched 6 (BitVec.ofNat 16 (max s.i.toNat 0x1000))) := by
  rw [storeAtIndex, (s.writeBlock_eq s.i bs).2 hbs (by omega)]
  rfl

theorem State.keepsRegs_writeBytes (s : State) (a : Nat) (bs : List Byte) : s.KeepsRegs (s.writeBytes a bs) [] := by
  intro r _
  rw [State.writeBytes_eq]
  rfl

theorem State.onlyBytesAndPc_writeBytes {s : State} {a : Nat} {bs : List Byte} (h : a + bs.length ≤ 0x1000) :
    s.OnlyBytesAndPc (s.writeBytes a bs) a bs.length := by
  refine ⟨fun c hc => ?_, by rw [State.writeBytes_eq]⟩
  rw [State.readByte_writeBytes s a bs h]
  split
  · have past_bytes : bs.length ≤ c - a := by omega
    exact List.getD_eq_default _ _ past_bytes
  · rfl

/-- A block that fits is stored: the `k`-th byte from I on is the block's `k`-th, and past the block's end the byte that
stood there. -/
theorem storesBlock_of_fits {bs : List Byte} {s : State} (h : s.i.toNat + bs.length ≤ 0x1000) :
    ∃ t, storeAtIndex bs s = .next t ∧
      (∀ k, t.readByte (s.i.toNat + k) = bs.getD k (s.readByte (s.i.toNat + k))) ∧
      t.pc = s.pc + 2 ∧ s.KeepsRegs t [] ∧ s.OnlyBytesAndPc t s.i.toNat bs.length := by
  refine ⟨_, storeAtIndex_of_fits h, fun k => ?_, ?_, s.keepsRegs_writeBytes _ bs,
    State.onlyBytesAndPc_writeBytes h⟩
  · have stored := State.readByte_writeBytes s s.i.toNat bs h (s.i.toNat + k)
    rwa [if_pos (Nat.le_add_right _ _), Nat.add_sub_cancel_left] at stored
  · rw [State.advance_pc, State.writeBytes_eq]

/-! ### Loading registers from I on -/

theorem exec_ldRegs_of_fits {s : State} {x : Nibble} (h : s.i.toNat + x.toNat ≤ 0xFFF) :
    exec (.ldRegs x) s = .next (s.setRegsFrom 0 (s.readBytes s.i.toNat (x.toNat + 1))).advance := by
  rw [exec, execLdRegs, blockLength, (s.readBlock_eq s.i (x.toNat + 1)).1 (by omega)]

theorem exec_ldRegs_of_past_end {s : State} {x : Nibble} (h : 0xFFF < s.i.toNat + x.toNat) :
    exec (.ldRegs x) s = .next (s.latched 6 (BitVec.ofNat 16 (max s.i.toNat 0x1000))) := by
  rw [exec, execLdRegs, blockLength, (s.readBlock_eq s.i (x.toNat + 1)).2 (by omega) (by omega)]
  rfl

theorem State.reg_setRegsFrom_readBytes (s : State) (a : Nat) (x r : Nibble) :
    (s.setRegsFrom 0 (s.readBytes a (x.toNat + 1))).reg r =
      if r.toNat ≤ x.toNat then s.readByte (a + r.toNat) else s.reg r := by
  have hx := x.isLt
  rw [State.reg_setRegsFrom _ _ _ (by rw [State.length_readBytes]; omega), if_pos (Nat.zero_le _), Nat.sub_zero]
  split
  · rw [List.getD_eq_getElem _ _ (by rw [State.length_readBytes]; omega), State.getElem_readBytes]
  · exact List.getD_eq_default _ _ (by rw [State.length_readBytes]; omega)

theorem State.keepsMemory_setRegsFrom (s : State) (k : Nat) (bs : List Byte) : s.KeepsMemory (s.setRegsFrom k bs) := by
  intro a
  rw [State.setRegsFrom_eq]
  rfl

end Sys2Proof.Machine
end

section
/-! Index register and memory instructions (43_index_memory R251 to R256). The encoding lines are the instructions' own
rows of the opcode map (`Laws.encode_and_mask`). -/

namespace Sys2Proof.Machine

/-- Settles O41: a block of three bytes, the decimal digits, is stored from I on. -/
theorem bcdStoresDigits : Obligations.BcdStoresDigits := by
  intro s x
  have hlength : (bcdDigits (s.reg x)).length = 3 := rfl
  refine ⟨Laws.encode_and_mask (Laws.OwnRow.ldB x), fun hfits => ?_, fun hpast => ?_⟩
  · obtain ⟨t, hexec, bytes, hpc, regs, frame⟩ :=
      storesBlock_of_fits (bs := bcdDigits (s.reg x)) (s := s) (by omega)
    have tens : (s.reg x / 10 % 10).toNat = (s.reg x).toNat / 10 % 10 := by
      rw [BitVec.toNat_umod, BitVec.toNat_udiv]
      rfl
    exact ⟨t, (exec_ldB x s).trans hexec, bytes 0 ▸ BitVec.toNat_udiv, bytes 1 ▸ tens,
      bytes 2 ▸ BitVec.toNat_umod, hpc, regs, frame⟩
  · exact (exec_ldB x s).trans (storeAtIndex_of_past_end (by omega) (by omega))

/-- Settles O42: the block of V0..Vx is stored from I on. -/
theorem storeRegistersToMemory : Obligations.StoreRegistersToMemory := by
  intro s x
  have hlength := s.length_regsUpTo x
  refine ⟨Laws.encode_and_mask (Laws.OwnRow.stRegs x), fun hfits => ?_, fun hpast => ?_⟩
  · obtain ⟨t, hexec, bytes, hpc, regs, frame⟩ := storesBlock_of_fits (bs := s.regsUpTo x) (s := s) (by omega)
    exact ⟨t, (exec_stRegs x s).trans hexec, fun k hk => (bytes k).trans (s.getD_regsUpTo x k _ hk), hpc, regs,
      hlength ▸ frame⟩
  · exact (exec_stRegs x s).trans (storeAtIndex_of_past_end (by omega) (by omega))

/-- Settles O43: `State.reg_setRegsFrom_readBytes` gives each register, and the load writes nothing but registers. -/
theorem loadRegistersFromMemory : Obligations.LoadRegistersFromMemory := by
  refine fun s x => ⟨Laws.encode_and_mask (Laws.OwnRow.ldRegs x), fun hfits => ?_, exec_ldRegs_of_past_end⟩
  have loaded := s.reg_setRegsFrom_readBytes s.i.toNat x
  refine ⟨_, exec_ldRegs_of_fits hfits, fun k hk => ?_, fun r hr => ?_, ?_, s.keepsMemory_setRegsFrom _ _, ?_⟩
  · have hx := x.isLt
    have number : (BitVec.ofNat 4 k).toNat = k := Nat.mod_eq_of_lt (by omega)
    rw [State.reg_advance, loaded, number, if_pos hk]
  · rw [State.reg_advance, loaded, if_neg (Nat.not_le.mpr hr)]
  · rw [State.advance_pc, State.setRegsFrom_eq]
  · rw [State.setRegsFrom_eq]
    rfl

/-- Settles O39: both set I alone, to the address and to the 16-bit sum. -/
theorem indexLoadAndAdd : Obligations.IndexLoadAndAdd :=
  fun s x nnn =>
    ⟨⟨Laws.encode_and_mask (Laws.OwnRow.ldI nnn), setsIndex_of_exec rfl (toNat_zextAddr nnn)⟩,
      ⟨Laws.encode_and_mask (Laws.OwnRow.addI x), setsIndex_of_exec rfl (toNat_add_zextByte s.i (s.reg x))⟩⟩

/-- Settles O40: a digit sets I alone, and five times a byte does not wrap in 16 bits. -/
theorem glyphAddressOrInvalidDigit : Obligations.GlyphAddressOrInvalidDigit :=
  fun s x => ⟨Laws.encode_and_mask (Laws.OwnRow.ldF x),
    fun hdigit => setsIndex_of_exec (exec_ldF_of_digit hdigit) (toNat_glyphAddr (s.reg x)),
    exec_ldF_of_not_digit⟩

end Sys2Proof.Machine
end

section
/-! SUPPORT. Dxyn as a canvas (44_display R302): which pixels the sprite at I turns over, when it collides, and what the
instruction leaves where the sprite fits in memory and where it does not. -/

namespace Sys2Proof.Machine

/-- The pixels and the collision after the `n`-row sprite at I is drawn at (V[x], V[y]). -/
def State.drawn (s : State) (x y n : Nibble) : Canvas :=
  drawSprite (s.reg x) (s.reg y) (s.readBytes s.i.toNat n.toNat) s.fb

/-- The points that drawing plots, in order. -/
def State.drawnPoints (s : State) (x y n : Nibble) : List (Fin 64 × Fin 32) :=
  spritePoints (s.reg x).toNat (s.reg y).toNat 0 (s.readBytes s.i.toNat n.toNat)

theorem State.drawn_eq_plotAll (s : State) (x y n : Nibble) :
    s.drawn x y n = Canvas.plotAll (s.drawnPoints x y n) { fb := s.fb, collision := false } :=
  drawSprite_eq _ _ _ _

theorem State.drawnPoints_nodup (s : State) (x y n : Nibble) : (s.drawnPoints x y n).Nodup := by
  have hn := n.isLt
  exact spritePoints_nodup _ _ _ _ (by rw [State.length_readBytes]; omega)

theorem State.getD_readBytes (s : State) {a n k : Nat} (d : Byte) (h : k < n) :
    (s.readBytes a n).getD k d = s.readByte (a + k) := by
  rw [List.getD_eq_getElem _ _ (by rwa [State.length_readBytes]), State.getElem_readBytes]

/-- The points plotted are the pixels covered: byte `row` of what is read from I holds the sprite bits of that row. -/
theorem State.mem_drawnPoints {s : State} {x y n : Nibble} {px : Fin 64} {py : Fin 32} :
    (px, py) ∈ s.drawnPoints x y n ↔ s.Covers x y n px py := by
  rw [State.drawnPoints, mem_spritePoints, State.length_readBytes]
  refine exists_congr fun row => exists_congr fun col => and_congr_right fun hrow => ?_
  rw [State.getD_readBytes s 0 hrow, Nat.zero_add, State.spriteBit]

theorem State.pixel_drawn_of_covers {s : State} {x y n : Nibble} {px : Fin 64} {py : Fin 32}
    (h : s.Covers x y n px py) : (s.drawn x y n).fb.pixel px py = !s.fb.pixel px py := by
  rw [State.drawn_eq_plotAll, Canvas.pixel_plotAll _ (s.drawnPoints_nodup x y n), if_pos (State.mem_drawnPoints.mpr h)]

theorem State.pixel_drawn_of_not_covers {s : State} {x y n : Nibble} {px : Fin 64} {py : Fin 32}
    (h : ¬ s.Covers x y n px py) : (s.drawn x y n).fb.pixel px py = s.fb.pixel px py := by
  rw [State.drawn_eq_plotAll, Canvas.pixel_plotAll _ (s.drawnPoints_nodup x y n),
    if_neg (mt State.mem_drawnPoints.mp h)]

theorem State.collision_drawn {s : State} {x y n : Nibble} :
    (s.drawn x y n).collision = true ↔ ∃ px py, s.Covers x y n px py ∧ s.fb.pixel px py = true := by
  rw [State.drawn_eq_plotAll, Canvas.collision_plotAll _ (s.drawnPoints_nodup x y n), Bool.false_or, List.any_eq_true,
    Prod.exists]
  simp only [State.mem_drawnPoints]

theorem exec_drw_of_fits {s : State} {x y n : Nibble} (h : n = 0 ∨ s.i.toNat + n.toNat - 1 ≤ 0xFFF) :
    exec (.drw x y n) s = .next ({ s with fb := (s.drawn x y n).fb, redraw := true }.setVF
      (flagByte (s.drawn x y n).collision)).advance := by
  have fits : n.toNat = 0 ∨ s.i.toNat + n.toNat - 1 ≤ 0xFFF := h.imp_left (congrArg BitVec.toNat)
  rw [exec, execDrw, (s.readBlock_eq s.i n.toNat).1 fits]
  rfl

theorem exec_drw_of_past_end {s : State} {x y n : Nibble} (hn : n ≠ 0) (h : 0xFFF < s.i.toNat + n.toNat - 1) :
    exec (.drw x y n) s = .next (s.latched 6 (BitVec.ofNat 16 (max s.i.toNat 0x1000))) := by
  have some_row : 0 < n.toNat := Nat.pos_of_ne_zero fun e => hn (BitVec.eq_of_toNat_eq e)
  rw [exec, execDrw, (s.readBlock_eq s.i n.toNat).2 some_row h]
  rfl

end Sys2Proof.Machine
end

section
/-! Display (44_display R301 to R303). -/

namespace Sys2Proof.Machine

/-- Settles O46: the canvas gives the pixels and the collision, and nothing but VF, redraw and pc is written besides
the framebuffer. -/
theorem drawTogglesCoveredPixels : Obligations.DrawTogglesCoveredPixels := by
  refine fun s x y n => ⟨Laws.encode_and_mask (Laws.OwnRow.drw x y n), fun fits => ?_, exec_drw_of_past_end⟩
  refine ⟨_, exec_drw_of_fits fits, fun _ _ => ⟨State.pixel_drawn_of_covers, State.pixel_drawn_of_not_covers⟩,
    fun lit => ?_, fun unlit => ?_, rfl, rfl, fun r hr => ?_, fun _ => rfl, rfl⟩
  · rw [State.reg_advance, State.reg_setVF_same, State.collision_drawn.mpr lit]
    rfl
  · have no_collision : ¬ (s.drawn x y n).collision = true := fun hc =>
      let ⟨px, py, covered, lit⟩ := State.collision_drawn.mp hc
      Bool.false_ne_true ((unlit px py covered).symm.trans lit)
    rw [State.reg_advance, State.reg_setVF_same, Bool.eq_false_of_not_eq_true no_collision]
    rfl
  · exact State.reg_setVF_of_ne _ (mt List.mem_singleton.mpr hr)

/-- Settles O45: the blank framebuffer has no pixel on (`Framebuffer.pixel_blank`), and only it, redraw and pc are
written. -/
theorem clearDisplay : Obligations.ClearDisplay :=
  ⟨rfl, fun _ => ⟨_, rfl, Framebuffer.pixel_blank, rfl, rfl, fun _ _ => rfl, fun _ => rfl, rfl⟩⟩

end Sys2Proof.Machine
end

section
/-! SUPPORT. Keypad and timers (45_keypad_timers R330 to R351): which key the scan finds, what the key instructions do
where V[x] names a key and where it does not, and the whole step of an instruction that completes. -/

namespace Sys2Proof.Machine

/-! ### The keypad scan -/

theorem State.lowestKey_eq_some {s : State} {k : Nat} (hk : k < 16) (pressed : s.keypad.getLsbD k = true)
    (lowest : ∀ j, j < k → s.keypad.getLsbD j = false) : s.lowestKey = some k := by
  cases found : s.lowestKey with
  | none => exact absurd ((State.lowestKey_none found k hk).symm.trans pressed) Bool.false_ne_true
  | some m =>
    obtain ⟨-, found_pressed, below_found⟩ := State.lowestKey_some found
    have not_above : ¬ k < m := fun h => Bool.false_ne_true ((below_found k h).symm.trans pressed)
    have not_below : ¬ m < k := fun h => Bool.false_ne_true ((lowest m h).symm.trans found_pressed)
    rw [show m = k by omega]

theorem State.lowestKey_eq_none {s : State} (unpressed : ∀ k, k < 16 → s.keypad.getLsbD k = false) :
    s.lowestKey = none := by
  cases found : s.lowestKey with
  | none => rfl
  | some k =>
    obtain ⟨hk, pressed, -⟩ := State.lowestKey_some found
    exact absurd ((unpressed k hk).symm.trans pressed) Bool.false_ne_true

theorem exec_ldVxK_of_key {s : State} {k : Nat} (x : Nibble) (h : s.lowestKey = some k) :
    exec (.ldVxK x) s = .next (s.setReg x (BitVec.ofNat 8 k)).advance := by
  rw [exec, execLdVxK, h]
  rfl

theorem exec_ldVxK_of_no_key {s : State} (x : Nibble) (h : s.lowestKey = none) :
    exec (.ldVxK x) s = .next { s with waiting := true, waitReg := x } := by
  rw [exec, execLdVxK, h]

/-! ### The key skips -/

theorem isDigit_of_le {b : Byte} (h : b.toNat ≤ 0xF) : isDigit b = true := decide_eq_true h

theorem not_isDigit_of_lt {b : Byte} (h : 0xF < b.toNat) : ¬ isDigit b = true :=
  fun digit => Nat.not_le.mpr h (of_decide_eq_true digit)

theorem exec_skp_of_digit {s : State} {x : Nibble} (h : (s.reg x).toNat ≤ 0xF) :
    exec (.skp x) s = .next (s.skipIf (s.keyPressed (s.reg x).toNat)) := if_pos (isDigit_of_le h)

theorem exec_sknp_of_digit {s : State} {x : Nibble} (h : (s.reg x).toNat ≤ 0xF) :
    exec (.sknp x) s = .next (s.skipIf (!s.keyPressed (s.reg x).toNat)) := if_pos (isDigit_of_le h)

/-- A byte that names no key is latched with code 7 (R330). -/
theorem raise_keyIndexFault (s : State) (b : Byte) :
    s.raise .keyIndexFault (zextByte b) = s.latched 7 (BitVec.ofNat 16 b.toNat) := by
  rw [BitVec.ofNat_toNat]
  rfl

theorem exec_skp_of_not_digit {s : State} {x : Nibble} (h : 0xF < (s.reg x).toNat) :
    exec (.skp x) s = .next (s.latched 7 (BitVec.ofNat 16 (s.reg x).toNat)) := by
  rw [exec, execSkp, if_neg (not_isDigit_of_lt h), raise_keyIndexFault]

theorem exec_sknp_of_not_digit {s : State} {x : Nibble} (h : 0xF < (s.reg x).toNat) :
    exec (.sknp x) s = .next (s.latched 7 (BitVec.ofNat 16 (s.reg x).toNat)) := by
  rw [exec, execSknp, if_neg (not_isDigit_of_lt h), raise_keyIndexFault]

/-! ### The step of an instruction that completes -/

/-- A step whose instruction raises nothing and does not suspend it: execute with the outputs cleared, then the
countdown (40_step_cycle R120). -/
theorem step_of_exec_ready {i : Instr} {s u : State} (hr : s.Ready) (hf : s.Fetchable)
    (hd : decode s.opcodeAtPc = .instr i) (hexec : exec i s.clearOutputs = .next u) (hu : u.Ready) :
    step s = .next u.tickTimers := by
  rw [step_of_fetchable hr hf, runFetched, decodeBytes_fetched, hd]
  simp only [hexec, finishStep_of_ready hu]

end Sys2Proof.Machine
end

section
/-! Keypad and timers (45_keypad_timers R331 to R351). The encoding lines are the instructions' own rows of the opcode
map (`Laws.encode_and_mask`). -/

namespace Sys2Proof.Machine

/-- Settles O49: the scan finds the lowest pressed key, which fits a byte and is written as to any register, or finds
none. -/
theorem waitForKeyEntry : Obligations.WaitForKeyEntry := by
  refine fun s x => ⟨Laws.encode_and_mask (Laws.OwnRow.ldVxK x), fun k hk pressed lowest => ?_,
    fun unpressed => exec_ldVxK_of_no_key x (State.lowestKey_eq_none unpressed)⟩
  have key_fits : (BitVec.ofNat 8 k).toNat = k := Nat.mod_eq_of_lt (by omega)
  obtain ⟨t, hexec, reg_x, hpc, frame⟩ :=
    writesReg_of_exec (exec_ldVxK_of_key x (State.lowestKey_eq_some hk pressed lowest))
  exact ⟨t, hexec, reg_x ▸ key_fits, hpc, frame⟩

/-- Settles O48: both are `State.skipIf` on the key V[x] names, or the latch where it names none. -/
theorem keySkips : Obligations.KeySkips :=
  fun _ x =>
    ⟨Laws.encode_and_mask (Laws.OwnRow.skp x), Laws.encode_and_mask (Laws.OwnRow.sknp x),
      fun key => ⟨skips_of_exec (exec_skp_of_digit key) Iff.rfl,
        skips_of_exec (exec_sknp_of_digit key) (Iff.of_eq (Bool.not_eq_true' _))⟩,
      fun no_key => ⟨exec_skp_of_not_digit no_key, exec_sknp_of_not_digit no_key⟩⟩

/-- Settles O50: execute writes V[x] alone, and the countdown after it leaves V[x]. -/
theorem readDelayTimer : Obligations.ReadDelayTimer :=
  fun s x => ⟨Laws.encode_and_mask (Laws.OwnRow.ldVxDt x), writesReg_of_exec rfl,
    fun hr hf hd => ⟨_, step_of_exec_ready hr hf hd rfl hr, s.clearOutputs.reg_setReg_same x s.dt,
      toNat_countDown s.dt⟩⟩

/-- Settles O51: execute writes DT and pc, and the countdown starts from the written value. -/
theorem writeDelayTimer : Obligations.WriteDelayTimer :=
  fun s x => ⟨Laws.encode_and_mask (Laws.OwnRow.ldDtVx x), ⟨_, rfl, rfl, rfl, fun _ _ => rfl, fun _ => rfl, rfl⟩,
    fun hr hf hd => ⟨_, step_of_exec_ready hr hf hd rfl hr, toNat_countDown (s.reg x)⟩⟩

/-- Settles O52: execute writes ST and pc, and stage 5 takes both the countdown and `sound_active` from the written
value. -/
theorem writeSoundTimer : Obligations.WriteSoundTimer :=
  fun s x => ⟨Laws.encode_and_mask (Laws.OwnRow.ldStVx x), ⟨_, rfl, rfl, rfl, fun _ _ => rfl, fun _ => rfl, rfl⟩,
    fun hr hf hd => ⟨_, step_of_exec_ready hr hf hd rfl hr, toNat_countDown (s.reg x), rfl⟩⟩

end Sys2Proof.Machine
end

section
/-! SUPPORT. The command `loadProgram` (70_reset R423): what it answers by the image's length, what the copied bytes read
as, and the first step of a core that has an empty image. -/

namespace Sys2Proof.Machine

theorem State.loadProgram_of_oversized {s : State} {img : List Byte} (h : 3584 < img.length) :
    s.loadProgram img = (.oversizedProgram (BitVec.ofNat 16 (min img.length 0xFFFF)), s) := if_pos h

theorem State.loadProgram_of_fits {s : State} {img : List Byte} (h : img.length ≤ 3584) :
    s.loadProgram img = (.ok, s.writeBytes 0x200 img) := if_neg (Nat.not_lt.mpr h)

/-- Each byte of a block written inside memory is read back at its place. -/
theorem State.readByte_add_writeBytes {s : State} {a k : Nat} {bs : List Byte} (fits : a + bs.length ≤ 0x1000)
    (hk : k < bs.length) : (s.writeBytes a bs).readByte (a + k) = bs[k] := by
  rw [State.readByte_writeBytes s a bs fits, if_pos (Nat.le_add_right a k), Nat.add_sub_cancel_left,
    List.getD_eq_getElem bs _ hk]

theorem State.ready_initialise (s : State) : s.initialise.Ready := ⟨rfl, rfl⟩

theorem State.pc_initialise (s : State) : s.initialise.pc = 0x0200 := rfl

theorem State.fetchable_initialise (s : State) : s.initialise.Fetchable := by
  rw [State.Fetchable, State.pc_initialise]
  decide

/-- The reset pc is above the font, where memory reads as 0x00 after `initialize` (R420). -/
theorem State.opcodeAtPc_initialise (s : State) : s.initialise.opcodeAtPc = 0x0000 := by
  rw [State.opcodeAtPc, State.pc_initialise, State.readByte_initialise, State.readByte_initialise,
    Memory.unlisted_of_le (by decide), Memory.unlisted_of_le (by decide)]
  rfl

theorem step_initialise (s : State) : step s.initialise = .next (s.initialise.latched 1 0x0000) := by
  have decoded : decode s.initialise.opcodeAtPc = .unknownOpcode 0x0000 := by
    rw [State.opcodeAtPc_initialise]
    rfl
  rw [step_of_unknownOpcode s.ready_initialise s.fetchable_initialise decoded]
  rfl

end Sys2Proof.Machine
end

section
/-! The command `loadProgram` (70_reset R423 to R425). -/

namespace Sys2Proof.Machine

/-- Settles O3: an image that fits 0x200..0xFFF is written there as one block, and writing bytes changes memory alone
(`State.writeBytes_eq`). -/
theorem loadProgramCopiesImage : Obligations.LoadProgramCopiesImage := by
  refine fun s img => ⟨State.loadProgram_of_oversized, fun hlength => ?_⟩
  have fits : 0x200 + img.length ≤ 0x1000 := by omega
  obtain ⟨other_bytes, -⟩ := State.onlyBytesAndPc_writeBytes (s := s) fits
  exact ⟨_, State.loadProgram_of_fits hlength, fun _ hk => State.readByte_add_writeBytes fits hk, other_bytes,
    by rw [State.writeBytes_eq]⟩

/-- Settles O4: 0xFFF is 0x200 + 3583, the place of a full image's last byte; an empty image writes nothing, so the
first step is the one after `initialize` alone (`step_initialise`). -/
theorem loadBoundaryAndEmptyImage : Obligations.LoadBoundaryAndEmptyImage := by
  refine fun s => ⟨fun img hlength => ?_, fun img hlength => ?_, rfl, step_initialise s⟩
  · rw [State.loadProgram_of_fits hlength.le]
    have fits : 0x200 + img.length ≤ 0x1000 := by omega
    exact ⟨rfl, State.readByte_add_writeBytes (k := 3583) fits⟩
  · rw [State.loadProgram_of_oversized hlength]
    exact ⟨_, rfl⟩

end Sys2Proof.Machine
end

section
/-! SUPPORT. Decoding undoes encoding: the decoder reads back the fields that a format of 30_encoding R92 wrote, and the
two bytes of an opcode in memory order (R65, R90) decode as the opcode. -/

namespace Sys2Proof

theorem decodeBytes_opcodeBytes (op : Word) : decodeBytes (opcodeBytes op) = decode op :=
  congrArg decode (opcodeOf_opcodeBytes op)

/-- Each constructor is encoded in one format, and the decoder looks at that format's fields: the group, and the low
nibble or the low byte where the group needs it. -/
theorem decode_encode (i : Instr) : decode (encode i) = .instr i := by
  cases i with
  | cls | ret => rfl
  | jp | call | ldI | jpV0 =>
    simp only [encode, decode, opGroup_formatNNN, opNNN_formatNNN]
    rfl
  | seByte | sneByte | ldByte | addByte | rnd =>
    simp only [encode, decode, opGroup_formatXKK, opX_formatXKK, opKK_formatXKK]
    rfl
  | seReg | ldReg | orReg | andReg | xorReg | addReg | subReg | shr | subnReg | shl | sneReg | drw =>
    simp only [encode, decode, decodeGroup5, decodeGroup8, decodeGroup9, opGroup_formatXYN, opX_formatXYN,
      opY_formatXYN, opN_formatXYN]
    rfl
  | skp | sknp | ldVxDt | ldVxK | ldDtVx | ldStVx | addI | ldF | ldB | stRegs | ldRegs =>
    simp only [encode, decode, decodeGroupE, decodeGroupF, opGroup_formatXKK, opX_formatXKK, opKK_formatXKK]
    rfl

end Sys2Proof
end

section
/-! The encoding, from instruction to word and back (30_encoding R90 to R104). -/

namespace Sys2Proof.Machine

/-- Settles O7: `decode_encode`, and the bytes decode as the opcode they make up. -/
theorem decodeEncodeRoundTrip : Obligations.DecodeEncodeRoundTrip :=
  fun i => ⟨decode_encode i, (decodeBytes_opcodeBytes (encode i)).trans (decode_encode i)⟩

/-- Settles O10: the seven words are the opcodes of their instructions, and 0x5001 has low nibble 1 in group 5. -/
theorem specWordsDecode : Obligations.SpecWordsDecode :=
  ⟨decode_encode .cls, decode_encode .ret, decode_encode (.call 0xABC), decode_encode (.seByte 0xA 0x7B),
    decode_encode (.shr 0x1 0xF), decode_encode (.drw 0x1 0x2 0x5), decode_encode (.ldB 0xA), rfl⟩

end Sys2Proof.Machine
end

section
/-! SUPPORT. Execute by what it writes (40_step_cycle R124): every instruction either raises its error or changes the
state in one of eight ways, from which each frame rule and each invariant of the step follows. -/

namespace Sys2Proof.Machine

/-- What execute leaves when it raises nothing, by the part of the state the instruction is there to write. -/
inductive ExecWrites (s : State) : Instr → State → Prop where
  /-- Registers, I, the timers or the `rnd` input, and the plain advance of pc. -/
  | advances {i : Instr} {v : Vector Byte 16} {idx : Word} {dt st : Byte} {rnd : List Byte} {draws : Nat}
      (regs : s.KeepsRegs { s with v := v } i.writesRegs) :
      ExecWrites s i { s with v := v, i := idx, dt := dt, st := st, rnd := rnd, draws := draws }.advance
  /-- A skip. -/
  | skips {i : Instr} {c : Bool} : ExecWrites s i (s.skipIf c)
  /-- A jump, at most to 0xFFF + 0xFF (40_step_cycle R127). -/
  | jumps {i : Instr} {target : Word} (bounded : target.toNat ≤ 0x10FE) : ExecWrites s i (s.jumpTo target)
  /-- 2nnn. -/
  | calls {nnn : Addr} (room : s.sp.val < 16) :
      ExecWrites s (.call nnn) { s with stack := s.stack.set s.sp.val s.pc room, sp := ⟨s.sp.val + 1, by omega⟩,
                                        pc := zextAddr nnn }
  /-- 00EE. -/
  | returns (pos : 0 < s.sp.val) :
      ExecWrites s .ret { s with sp := ⟨s.sp.val - 1, by omega⟩, pc := s.entry (s.sp.val - 1) + 2 }
  /-- The framebuffer, the redraw flag, and VF in a draw. -/
  | paints {i : Instr} {v : Vector Byte 16} {fb : Framebuffer} (display : i = .cls ∨ ∃ x y n, i = .drw x y n)
      (regs : s.KeepsRegs { s with v := v } i.writesRegs) :
      ExecWrites s i { s with v := v, fb := fb, redraw := true }.advance
  /-- Bytes of memory from I on. -/
  | stores {i : Instr} {bs : List Byte} (storer : (∃ x, i = .ldB x) ∨ ∃ x, i = .stRegs x) :
      ExecWrites s i { s with mem := (s.writeBytes s.i.toNat bs).mem }.advance
  /-- Fx0A with no key pressed. -/
  | suspends {x : Nibble} : ExecWrites s (.ldVxK x) { s with waiting := true, waitReg := x }

theorem State.keepsRegs_refl (s : State) (dst : List Nibble) : s.KeepsRegs s dst := fun _ _ => rfl

theorem State.keepsRegs_setReg (s : State) {x : Nibble} {dst : List Nibble} (hx : x ∈ dst) (b : Byte) :
    s.KeepsRegs (s.setReg x b) dst :=
  ((s.onlyRegsAndPc_refl dst).setReg hx b).1

/-- Fx65 names V0..Vx as its destinations, so it keeps every register above x. -/
theorem State.keepsRegs_setRegsFrom_readBytes (s : State) (a : Nat) (x : Nibble) :
    s.KeepsRegs (s.setRegsFrom 0 (s.readBytes a (x.toNat + 1))) (Instr.ldRegs x).writesRegs := by
  intro r hr
  have above : ¬ r.toNat ≤ x.toNat := fun h =>
    hr (List.mem_map.mpr ⟨r.toNat, List.mem_range.mpr (by omega), by simp⟩)
  rw [State.reg_setRegsFrom_readBytes, if_neg above]

theorem toNat_zextAddr_le (nnn : Addr) : (zextAddr nnn).toNat ≤ 0xFFF := by
  have hnnn := nnn.isLt
  rw [toNat_zextAddr]
  omega

theorem toNat_zextAddr_add_zextByte_le (nnn : Addr) (b : Byte) : (zextAddr nnn + zextByte b).toNat ≤ 0x10FE := by
  have hnnn := nnn.isLt
  have hb := b.isLt
  rw [toNat_zextAddr_add_zextByte]
  omega

/-- Fx33 and Fx55 write their block, or raise `AddressFault` (43_index_memory R250). -/
theorem storeAtIndex_writes {i : Instr} {s t : State} {bs : List Byte}
    (fault : i.executeError = some (ErrorKind.code .addressFault))
    (storer : (∃ x, i = .ldB x) ∨ ∃ x, i = .stRegs x) (h : storeAtIndex bs s = .next t) :
    ExecRaises i s t ∨ ExecWrites s i t := by
  unfold storeAtIndex at h
  split at h <;> cases h
  · exact .inl ⟨_, _, fault, rfl⟩
  · next hwrite =>
    rw [State.writeBlock_ok hwrite, State.writeBytes_eq]
    exact .inr (.stores storer)

/-- What execute can do, when it answers a next state: `exec_cases` with everything that is written. -/
theorem exec_writes {i : Instr} {s t : State} (h : exec i s = .next t) : ExecRaises i s t ∨ ExecWrites s i t := by
  cases i with
  | ret =>
    simp only [exec, execRet] at h
    split at h <;> cases h
    · exact .inl ⟨_, _, rfl, rfl⟩
    · next hpop =>
      obtain ⟨pos, rfl, rfl⟩ := State.pop?_some hpop
      exact .inr (.returns pos)
  | call =>
    simp only [exec, execCall] at h
    split at h <;> cases h
    · exact .inl ⟨_, _, rfl, rfl⟩
    · next hpush =>
      obtain ⟨room, rfl⟩ := State.push?_some hpush
      exact .inr (.calls room)
  | skp | sknp =>
    simp only [exec, execSkp, execSknp] at h
    split at h <;> cases h
    · exact .inr .skips
    · exact .inl ⟨_, _, rfl, rfl⟩
  | ldF =>
    simp only [exec, execLdF] at h
    split at h <;> cases h
    · exact .inr (.advances (s.keepsRegs_refl _))
    · exact .inl ⟨_, _, rfl, rfl⟩
  | ldB x => exact storeAtIndex_writes rfl (.inl ⟨x, rfl⟩) h
  | stRegs x => exact storeAtIndex_writes rfl (.inr ⟨x, rfl⟩) h
  | ldRegs x =>
    by_cases fits : s.i.toNat + x.toNat ≤ 0xFFF
    · rw [exec_ldRegs_of_fits fits, State.setRegsFrom_eq] at h
      cases h
      exact .inr (.advances (State.setRegsFrom_eq s _ _ ▸ s.keepsRegs_setRegsFrom_readBytes s.i.toNat x))
    · rw [exec_ldRegs_of_past_end (Nat.not_le.mp fits)] at h
      cases h
      exact .inl ⟨.addressFault, _, rfl, rfl⟩
  | drw x y n =>
    simp only [exec, execDrw] at h
    split at h <;> cases h
    · exact .inl ⟨_, _, rfl, rfl⟩
    · exact .inr (.paints (.inr ⟨x, y, n, rfl⟩) (s.keepsRegs_setReg (List.mem_singleton.mpr rfl) _))
  | cls =>
    cases h
    exact .inr (.paints (.inl rfl) (s.keepsRegs_refl _))
  | ldVxK x =>
    simp only [exec, execLdVxK] at h
    split at h <;> cases h
    · exact .inr (.advances (s.keepsRegs_setReg (List.mem_singleton.mpr rfl) _))
    · exact .inr .suspends
  | shr x | shl x =>
    simp only [exec, execShr, execShl] at h
    split at h <;> cases h
    · exact .inr (.advances (s.onlyRegsAndPc_setVF_setReg x _ _).1)
    · exact .inr (.advances (s.onlyRegsAndPc_setReg_setVF x _ _).1)
  | addReg x | subReg x | subnReg x =>
    cases h
    exact .inr (.advances (s.onlyRegsAndPc_setReg_setVF x _ _).1)
  | ldByte x | addByte x | ldReg x | orReg x | andReg x | xorReg x | ldVxDt x | rnd x =>
    cases h
    exact .inr (.advances (s.keepsRegs_setReg (List.mem_singleton.mpr rfl) _))
  | ldI | addI | ldDtVx | ldStVx =>
    cases h
    exact .inr (.advances (s.keepsRegs_refl _))
  | seByte | sneByte | seReg | sneReg =>
    cases h
    exact .inr .skips
  | jp nnn =>
    cases h
    exact .inr (.jumps ((toNat_zextAddr_le nnn).trans (by decide)))
  | jpV0 nnn =>
    cases h
    exact .inr (.jumps (toNat_zextAddr_add_zextByte_le nnn _))

/-- Execute always answers a next state: each check a meaning makes has an outcome on both sides. -/
theorem exec_answers (i : Instr) (s : State) : ∃ t, exec i s = .next t := by
  cases i with
  | ret | call | skp | sknp | ldF | ldB | stRegs | ldRegs | drw | ldVxK | shr | shl =>
    simp only [exec, execRet, execCall, execSkp, execSknp, execLdF, execLdB, execStRegs, execLdRegs, execDrw,
      execLdVxK, execShr, execShl]
    split <;> exact ⟨_, rfl⟩
  | _ => exact ⟨_, rfl⟩

end Sys2Proof.Machine
end

section
/-! SUPPORT. What execute leaves alone, from `ExecWrites`, and the one principle the invariants of the step are proved
by. -/

namespace Sys2Proof.Machine

variable {s t : State} {i : Instr}

/-! ### Fields that execute never writes, or writes in some instructions only -/

/-- The fields that execute leaves when it raises nothing: the latch, the keypad and the parameters. -/
structure State.KeepsLatchAndInputs (s t : State) : Prop where
  halted : t.halted = s.halted
  errCode : t.errCode = s.errCode
  errValue : t.errValue = s.errValue
  errPc : t.errPc = s.errPc
  keypad : t.keypad = s.keypad
  params : t.params = s.params

theorem ExecWrites.keepsLatchAndInputs (h : ExecWrites s i t) : s.KeepsLatchAndInputs t := by
  cases h <;> exact ⟨rfl, rfl, rfl, rfl, rfl, rfl⟩

/-- Only Fx0A suspends a step. -/
theorem ExecWrites.waiting_cases (h : ExecWrites s i t) :
    t.waiting = s.waiting ∨ ∃ x, i = .ldVxK x ∧ t = { s with waiting := true, waitReg := x } := by
  cases h with
  | suspends => exact .inr ⟨_, rfl, rfl⟩
  | _ => exact .inl rfl

theorem ExecWrites.mem_eq (h : ExecWrites s i t) (not_ldB : ∀ x, i ≠ .ldB x) (not_stRegs : ∀ x, i ≠ .stRegs x) :
    t.mem = s.mem := by
  cases h with
  | stores storer =>
    rcases storer with ⟨x, rfl⟩ | ⟨x, rfl⟩
    · exact absurd rfl (not_ldB x)
    · exact absurd rfl (not_stRegs x)
  | _ => rfl

theorem ExecWrites.stack_eq (h : ExecWrites s i t) (not_call : ∀ nnn, i ≠ .call nnn) (not_ret : i ≠ .ret) :
    t.stack = s.stack ∧ t.sp = s.sp := by
  cases h with
  | calls => exact absurd rfl (not_call _)
  | returns => exact absurd rfl not_ret
  | _ => exact ⟨rfl, rfl⟩

theorem ExecWrites.fb_eq (h : ExecWrites s i t) (not_cls : i ≠ .cls) (not_drw : ∀ x y n, i ≠ .drw x y n) :
    t.fb = s.fb ∧ t.redraw = s.redraw := by
  cases h with
  | paints display =>
    rcases display with rfl | ⟨x, y, n, rfl⟩
    · exact absurd rfl not_cls
    · exact absurd rfl (not_drw x y n)
  | _ => exact ⟨rfl, rfl⟩

theorem ExecWrites.keepsRegs (h : ExecWrites s i t) : s.KeepsRegs t i.writesRegs := by
  cases h with
  | advances regs | paints _ regs => exact regs
  | _ => exact fun _ _ => rfl

/-- Memory stays canonical: what is stored goes through `Memory.write`. -/
theorem ExecWrites.memoryCanonical (h : ExecWrites s i t) (canonical : s.MemoryCanonical) : t.MemoryCanonical := by
  cases h with
  | stores => exact s.wf_writeBytes _ _ canonical
  | _ => exact canonical

/-! ### Where pc stands -/

theorem toNat_add_two_le {w : Word} (h : w.toNat ≤ 0xFFE) : (w + 2).toNat ≤ 0x10FE := by
  bv_omega

theorem toNat_add_four_le {w : Word} (h : w.toNat ≤ 0xFFE) : (w + 4).toNat ≤ 0x10FE := by
  bv_omega

/-! ### Stage 5 and the errors of a step -/

/-- Stage 5 changes no field but the timers and `sound_active`. -/
theorem finishStep_eq (t : State) :
    finishStep t = { t with dt := (finishStep t).dt, st := (finishStep t).st,
                            soundActive := (finishStep t).soundActive } := by
  unfold finishStep
  split <;> rfl

theorem finishStep_of_waiting (h : t.waiting = true) : finishStep t = t := by
  simp [finishStep, h]

/-- `OversizedProgram` is a load's result and no step's error (60_exceptions R374). -/
theorem ne_oversizedProgram_of_executeError {e : ErrorKind} (h : i.executeError = some e.code) :
    e ≠ .oversizedProgram := by
  rintro rfl
  cases i <;> cases h

theorem ErrorKind.code_mem_of_ne_oversizedProgram {e : ErrorKind} (h : e ≠ .oversizedProgram) :
    e.code ∈ ([1, 2, 4, 5, 6, 7] : List (BitVec 4)) := by
  cases e with
  | oversizedProgram => exact absurd rfl h
  | _ => decide

/-- An invariant of the step: it is kept when a suspended step takes its key, when an error is raised by a ready core,
with the outputs cleared or not, and by execute with stage 5 on the fetched instruction. -/
theorem step_keeps {P : State → Prop} (hs : P s) (h : step s = .next t)
    (resumes : s.halted = false → s.waiting = true →
      ∀ k, P ({ s with waiting := false }.takeKey s.waitReg k).tickTimers)
    (raises : s.Ready → ∀ e value, e ≠ .oversizedProgram → P (s.raise e value) ∧ P (s.clearOutputs.raise e value))
    (executes : s.Ready → s.Fetchable →
      ∀ i u, decode s.opcodeAtPc = .instr i → ExecWrites s.clearOutputs i u → P (finishStep u)) : P t := by
  rcases step_cases h with ⟨-, rfl⟩ | ⟨running, suspended, rfl⟩ | ⟨hr, -, rfl⟩ | ⟨hr, -, -, rfl⟩ |
    ⟨hr, hf, i, u, hd, hexec, rfl⟩
  · exact hs
  · rcases sampleKeypad_cases s with ⟨k, -, hkey⟩ | ⟨-, hnone⟩
    · exact hkey ▸ resumes running suspended k
    · exact hnone.symm ▸ hs
  · exact (raises hr .addressFault _ nofun).1
  · exact (raises hr .unknownOpcode _ nofun).2
  · rcases exec_writes hexec with ⟨e, value, herror, rfl⟩ | hwrites
    · rw [finishStep_of_halted rfl]
      exact (raises hr e value (ne_oversizedProgram_of_executeError herror)).2
    · exact executes hr hf i u hd hwrites

end Sys2Proof.Machine
end

section
/-! Invariants of every step (10_state R26 and R39, 40_step_cycle R127 and R133, 45_keypad R341). -/

namespace Sys2Proof.Machine

/-- Settles O53: errors, sampling and stage 5 write no memory, and what execute writes stays canonical. -/
theorem stepKeepsMemoryCanonical : Obligations.StepKeepsMemoryCanonical := by
  refine fun s t canonical h => step_keeps canonical h (fun _ _ _ => canonical)
    (fun _ _ _ _ => ⟨canonical, canonical⟩) (fun _ _ i u _ hwrites => ?_)
  rw [finishStep_eq]
  exact hwrites.memoryCanonical canonical

/-- Execute from an address that was fetched from (R26, R127): an advance or a skip ends at most 4 above it, a call
pushes it, a jump ends at most at 0x10FE, and a return 2 above an entry of the stack. -/
theorem ExecWrites.pcBounded {s t : State} {i : Instr} (h : ExecWrites s i t) (awake : s.waiting = false)
    (fetched : s.pc.toNat ≤ 0xFFE) (entries : ∀ j, j < s.sp.val → (s.entry j).toNat ≤ 0xFFE) : t.PcBounded := by
  have never_waits {p : Prop} (suspended : s.waiting = true) : p := absurd suspended (ne_true_of_eq_false awake)
  cases h with
  | advances | paints | stores => exact ⟨toNat_add_two_le fetched, entries, never_waits⟩
  | @skips _ c =>
    refine ⟨?_, entries, never_waits⟩
    rw [State.skipIf_pc]
    split
    · exact toNat_add_four_le fetched
    · exact toNat_add_two_le fetched
  | jumps target_le => exact ⟨target_le, entries, never_waits⟩
  | calls room =>
    have entry_le (j : Nat) (hj : j < s.sp.val + 1) : (if j = s.sp.val then s.pc else s.entry j).toNat ≤ 0xFFE := by
      split
      · exact fetched
      · exact entries j (by omega)
    have pushed (j : Nat) := State.entry_of_push? (State.push?_of_lt s.pc room) j
    exact ⟨(toNat_zextAddr_le _).trans (by decide), fun j hj => (pushed j).symm ▸ entry_le j hj, never_waits⟩
  | returns pos =>
    exact ⟨toNat_add_two_le (entries _ (by omega)), fun j (hj : j < s.sp.val - 1) => entries j (by omega),
      never_waits⟩
  | suspends => exact ⟨fetched.trans (by decide), entries, fun _ => fetched⟩

/-- Settles O54: `ExecWrites.pcBounded` for a fetched instruction, whose address is at most 0xFFE, and a resumed step
advances from a suspended pc, which is too. -/
theorem stepKeepsPcBounded : Obligations.StepKeepsPcBounded := by
  intro s t bounded h
  have ⟨_, entries, suspended_le⟩ := bounded
  refine step_keeps bounded h (fun _ suspended k => ?_) (fun _ _ _ _ => ⟨bounded, bounded⟩)
    (fun hr hf i u _ hwrites => ?_)
  · exact ⟨toNat_add_two_le (suspended_le suspended), entries, nofun⟩
  · rw [finishStep_eq]
    exact hwrites.pcBounded hr.2 (Nat.le_of_succ_le_succ hf) entries

/-- Settles O55: an error is latched by a ready core with a step error's code, and every other move of a running core
leaves the latch clear. -/
theorem stepKeepsLatchSound : Obligations.StepKeepsLatchSound := by
  intro s t sound h
  have ⟨clear, _⟩ := sound
  refine step_keeps sound h (fun running _ k => ?_) (fun hr e value he => ?_) (fun hr _ i u _ hwrites => ?_)
  · exact ⟨clear, fun halts => absurd halts (ne_true_of_eq_false running)⟩
  · obtain ⟨-, awake⟩ := hr
    have code_mem := ErrorKind.code_mem_of_ne_oversizedProgram he
    exact ⟨⟨nofun, fun _ => ⟨code_mem, rfl, awake⟩⟩, ⟨nofun, fun _ => ⟨code_mem, rfl, awake⟩⟩⟩
  · obtain ⟨running, -⟩ := hr
    obtain ⟨code_zero, value_zero, errPc_zero⟩ := clear running
    have kept := hwrites.keepsLatchAndInputs
    have still_running : u.halted = false := kept.halted.trans running
    rw [finishStep_eq]
    exact ⟨fun _ => ⟨kept.errCode.trans code_zero, kept.errValue.trans value_zero, kept.errPc.trans errPc_zero⟩,
      fun halts => absurd halts (ne_true_of_eq_false still_running)⟩

/-- Settles O56: only Fx0A suspends a step, and it leaves pc, memory and the cleared outputs. -/
theorem stepKeepsWaitSound : Obligations.StepKeepsWaitSound := by
  have sound_of_awake {u : State} (awake : u.waiting = false) : u.WaitSound :=
    fun suspended => absurd suspended (ne_true_of_eq_false awake)
  refine fun s t sound h => step_keeps sound h (fun _ _ _ => sound_of_awake rfl)
    (fun ⟨_, awake⟩ _ _ _ => ⟨sound_of_awake awake, sound_of_awake awake⟩) (fun ⟨_, awake⟩ hf i u hd hwrites => ?_)
  rcases hwrites.waiting_cases with hwaiting | ⟨x, rfl, rfl⟩
  · exact sound_of_awake ((finishStep_waiting u).trans (hwaiting.trans awake))
  · rw [finishStep_of_waiting rfl]
    exact fun _ => ⟨hf, hd, rfl, rfl⟩

end Sys2Proof.Machine
end

section
/-! Frame rules of execute and of the step (10_state R21 to R35, 20_memory R66, 40_step_cycle R120 to R136). -/

namespace Sys2Proof.Machine

/-- Settles O23: a raised error writes the latch alone, and anything else `ExecWrites.mem_eq`. -/
theorem onlyBcdAndStoreWriteMemory : Obligations.OnlyBcdAndStoreWriteMemory := by
  intro i s t h not_ldB not_stRegs
  rcases exec_writes h with ⟨e, value, -, rfl⟩ | hwrites
  · exact ⟨rfl, fun _ => rfl⟩
  · have hmem := hwrites.mem_eq not_ldB not_stRegs
    exact ⟨hmem, State.readByte_congr hmem hwrites.keepsLatchAndInputs.params⟩

/-- Settles O24: a raised error writes the latch alone, and anything else `ExecWrites.stack_eq` and
`ExecWrites.fb_eq`. -/
theorem stackAndFramebufferWriters : Obligations.StackAndFramebufferWriters := by
  intro i s t h
  rcases exec_writes h with ⟨e, value, -, rfl⟩ | hwrites
  · exact ⟨fun _ _ => ⟨rfl, rfl⟩, fun _ _ => ⟨rfl, rfl⟩⟩
  · exact ⟨hwrites.stack_eq, hwrites.fb_eq⟩

/-- Settles O25: a raised error writes the latch alone, and anything else `ExecWrites.keepsRegs`. -/
theorem registerWritersNamed : Obligations.RegisterWritersNamed := by
  intro i s t h
  rcases exec_writes h with ⟨e, value, -, rfl⟩ | hwrites
  · exact fun _ _ => rfl
  · exact hwrites.keepsRegs

/-- Settles O19: of the two cases of `exec_cases`, only the raised error halts a running core. -/
theorem executeRaisesOnlyItsError : Obligations.ExecuteRaisesOnlyItsError := by
  intro i s t running h halts
  rcases exec_cases h with ⟨e, value, herror, rfl⟩ | ⟨hkept, -, -⟩
  · exact ⟨herror, rfl⟩
  · exact absurd halts (ne_true_of_eq_false (hkept.trans running))

/-- Settles O20: the keypad and the parameters are kept by every move of `step_keeps`, whatever the state. -/
theorem stepNeverWritesKeypad : Obligations.StepNeverWritesKeypad := by
  refine fun s t h => step_keeps (P := fun u => u.keypad = s.keypad ∧ u.params = s.params) ⟨rfl, rfl⟩ h
    (fun _ _ _ => ⟨rfl, rfl⟩) (fun _ _ _ _ => ⟨⟨rfl, rfl⟩, ⟨rfl, rfl⟩⟩) (fun _ _ i u _ hwrites => ?_)
  have kept := hwrites.keepsLatchAndInputs
  rw [finishStep_eq]
  exact ⟨kept.keypad, kept.params⟩

theorem step_of_instr {s t : State} {i : Instr} (hr : s.Ready) (hf : s.Fetchable)
    (hd : decode s.opcodeAtPc = .instr i) (hexec : exec i s.clearOutputs = .next t) :
    step s = .next (finishStep t) := by
  rw [step_of_fetchable hr hf, runFetched, decodeBytes_fetched, hd]
  simp only [hexec]

/-- Settles O17: a halted core stays, a suspended one samples, and a ready one latches an error or executes, which
always answers (`exec_answers`). -/
theorem everyStepAnswersANextState : Obligations.EveryStepAnswersANextState := by
  intro s
  cases running : s.halted with
  | true => exact ⟨s, step_of_halted running⟩
  | false =>
    cases awake : s.waiting with
    | true => exact ⟨_, step_of_waiting running awake⟩
    | false =>
      by_cases hf : s.Fetchable
      · rcases decode_cases s.opcodeAtPc with ⟨i, hd⟩ | hd
        · obtain ⟨t, hexec⟩ := exec_answers i s.clearOutputs
          exact ⟨_, step_of_instr ⟨running, awake⟩ hf hd hexec⟩
        · exact ⟨_, step_of_unknownOpcode ⟨running, awake⟩ hf hd⟩
      · exact ⟨_, step_of_not_fetchable ⟨running, awake⟩ hf⟩

/-- Settles O11: execute answers a next state (`exec_answers`), and stage 5 is `finishStep`. -/
theorem stepRunsDecodedInstruction : Obligations.StepRunsDecodedInstruction := by
  intro s i hr hf hd
  obtain ⟨t, hexec⟩ := exec_answers i s.cleared
  rw [step_of_instr hr hf hd hexec, hexec]
  simp only [finishStep, Bool.or_eq_true]
  rfl

theorem sampleKeypad_of_key {s : State} {k : Nat} (h : s.lowestKey = some k) :
    sampleKeypad s = ({ s with waiting := false }.takeKey s.waitReg k).tickTimers := by
  rw [sampleKeypad, h]

theorem sampleKeypad_of_no_key {s : State} (h : s.lowestKey = none) : sampleKeypad s = s := by
  rw [sampleKeypad, h]

/-- Settles O15: a sampling that finds no key changes nothing; one that does is `State.takeKey` on `wait_reg` with the
suspension ended, and then stage 5. -/
theorem waitingStepSamplesKeypad : Obligations.WaitingStepSamplesKeypad := by
  refine fun s running suspended => ⟨fun unpressed => ?_, fun k hk pressed lowest => ?_⟩
  · rw [step_of_waiting running suspended, sampleKeypad_of_no_key (State.lowestKey_eq_none unpressed)]
  · have stepped := step_of_waiting running suspended
    rw [sampleKeypad_of_key (State.lowestKey_eq_some hk pressed lowest)] at stepped
    have key_stored := congrArg BitVec.toNat (s.reg_setReg_same s.waitReg (BitVec.ofNat 8 k))
    have key_fits : (BitVec.ofNat 8 k).toNat = k := Nat.mod_eq_of_lt (by omega)
    refine ⟨_, stepped, key_stored.trans key_fits, rfl, rfl, toNat_countDown s.dt, toNat_countDown s.st, rfl,
      s.keepsRegs_setReg (List.mem_singleton.mpr rfl) _, fun _ => rfl, ?_⟩
    rw [← suspended]
    rfl

end Sys2Proof.Machine
end

section
/-! Placing and reading bytes of memory (20_memory R65, R73). -/

namespace Sys2Proof.Machine

/-- Settles O22: an address up to 0xFFF is inside memory, where `State.readByte_writeByte` holds. -/
theorem readGivesLastWrite : Obligations.ReadGivesLastWrite :=
  fun s _ c b h => s.readByte_writeByte c b (Nat.lt_succ_of_le h)

/-- The two bytes of an opcode written at pc are the opcode there. -/
theorem State.opcodeAtPc_writeBytes_opcodeBytes {s : State} (hf : s.Fetchable) (op : Word) :
    (s.writeBytes s.pc.toNat (opcodeBytes op)).opcodeAtPc = op := by
  have fits : s.pc.toNat + (opcodeBytes op).length ≤ 0x1000 := Nat.succ_le_succ hf
  have high : (s.writeBytes s.pc.toNat (opcodeBytes op)).readByte s.pc.toNat = op.extractLsb' 8 8 :=
    State.readByte_add_writeBytes (k := 0) fits Nat.two_pos
  have low : (s.writeBytes s.pc.toNat (opcodeBytes op)).readByte (s.pc.toNat + 1) = op.extractLsb' 0 8 :=
    State.readByte_add_writeBytes (k := 1) fits Nat.one_lt_two
  have hpc : (s.writeBytes s.pc.toNat (opcodeBytes op)).pc = s.pc := by rw [State.writeBytes_eq]
  rw [State.opcodeAtPc, hpc, high, low]
  exact opcodeOf_opcodeBytes op

/-- `withFetchWord` makes the core ready, with pc where it can be fetched from, and writes the opcode there. -/
theorem State.exists_withFetchWord_eq (s : State) (w : Nat) : ∃ r : State, r.Ready ∧ r.Fetchable ∧
    s.withFetchWord 16 w = r.writeBytes r.pc.toNat (opcodeBytes (tableOpcode 16 w)) := by
  have pc_le : (if s.pc.toNat ≤ 0xFFE then s.pc else 0x0200).toNat + 1 ≤ 0xFFF := by
    split
    · omega
    · decide
  exact ⟨{ s with pc := if s.pc.toNat ≤ 0xFFE then s.pc else 0x0200, halted := false, waiting := false },
    ⟨rfl, rfl⟩, pc_le, rfl⟩

/-- Settles O21: the word is written at an address that can be fetched from, in the byte order the fetch reads. -/
theorem placedWordIsFetched : Obligations.PlacedWordIsFetched := by
  intro s w hw
  obtain ⟨r, ready, fetchable, placed⟩ := s.exists_withFetchWord_eq w
  have word : tableOpcode 16 w = BitVec.ofNat 16 w := congrArg _ (Nat.mod_eq_of_lt hw)
  rw [placed, word]
  refine ⟨?_, ?_, State.opcodeAtPc_writeBytes_opcodeBytes fetchable _⟩
  · rw [State.writeBytes_eq]
    exact ready
  · rw [State.writeBytes_eq]
    exact fetchable

end Sys2Proof.Machine
end

section
/-! An instruction undone by another or by itself: call and return (41_control_flow R151, R153), store and load
(43_index_memory R255, R256), the same draw twice (44_display R302). -/

namespace Sys2Proof.Machine

/-- Settles O29: the return pops the entry the call pushed, and lowers the pointer the call raised. -/
theorem callThenReturnResumes : Obligations.CallThenReturnResumes := by
  intro s t nnn room h
  have pushed := State.push?_of_lt s.pc room
  obtain rfl := Host.Outcome.next.inj ((exec_call_of_push? nnn pushed).symm.trans h)
  have entries (j : Nat) := State.entry_of_push? pushed j
  refine ⟨_, exec_ret_of_pop? (State.pop?_of_pos (Nat.succ_pos s.sp.val)), ?_, rfl, fun j hj => ?_, rfl⟩
  · exact congrArg (· + 2) ((entries s.sp.val).trans (if_pos rfl))
  · exact (entries j).trans (if_neg hj.ne)

/-- Settles O44: the bytes stored at I on are the registers before the store, and the load reads them from there. -/
theorem storeThenLoadRestoresRegisters : Obligations.StoreThenLoadRestoresRegisters := by
  intro s t u x v' fits hstore hload r hr
  obtain ⟨-, stores, -⟩ := storeRegistersToMemory s x
  obtain ⟨t', hstore', stored, -, -, -, frame⟩ := stores fits
  obtain rfl := Host.Outcome.next.inj (hstore'.symm.trans hstore)
  have hi : t'.i = s.i := (congrArg State.i frame :)
  obtain ⟨-, loads, -⟩ := loadRegistersFromMemory { t' with v := v' } x
  obtain ⟨u', hload', loaded, -⟩ := loads (hi ▸ fits)
  obtain rfl := Host.Outcome.next.inj (hload'.symm.trans hload)
  calc u'.reg r = u'.reg (BitVec.ofNat 4 r.toNat) := by rw [BitVec.ofNat_toNat, BitVec.setWidth_eq]
    _ = t'.readByte (t'.i.toNat + r.toNat) := loaded r.toNat hr
    _ = s.reg (BitVec.ofNat 4 r.toNat) := hi ▸ stored r.toNat hr
    _ = s.reg r := by rw [BitVec.ofNat_toNat, BitVec.setWidth_eq]

/-- What a sprite covers depends on I, memory and the two position registers only. -/
theorem State.covers_congr {s t : State} {x y n : Nibble} (hi : t.i = s.i) (memory : s.KeepsMemory t)
    (hx : t.reg x = s.reg x) (hy : t.reg y = s.reg y) (px : Fin 64) (py : Fin 32) :
    t.Covers x y n px py ↔ s.Covers x y n px py := by
  simp only [State.Covers, State.spriteBit, hi, hx, hy, memory _]

/-- Settles O47: the first draw keeps everything the sprite and its place depend on, so the second covers the same
pixels and turns each over again; a covered pixel is lit before the second draw where it was off before the first. -/
theorem drawTwiceRestores : Obligations.DrawTwiceRestores := by
  intro s t u x y n hx hy fits first second
  obtain ⟨-, draws, -⟩ := drawTogglesCoveredPixels s x y n
  obtain ⟨t', hexec, toggled, -, -, -, -, regs, memory, frame⟩ := draws fits
  obtain rfl := Host.Outcome.next.inj (hexec.symm.trans first)
  have hi : t'.i = s.i := (congrArg State.i frame :)
  have covers := State.covers_congr (n := n) hi memory (regs x (mt List.mem_singleton.mp hx))
    (regs y (mt List.mem_singleton.mp hy))
  obtain ⟨-, draws_again, -⟩ := drawTogglesCoveredPixels t' x y n
  obtain ⟨u', hexec', toggled_again, lit, unlit, -⟩ := draws_again (hi.symm ▸ fits)
  obtain rfl := Host.Outcome.next.inj (hexec'.symm.trans second)
  refine ⟨Framebuffer.ext_pixel fun px py => ?_, fun ⟨px, py, covered, off⟩ => lit ⟨px, py, ?_, ?_⟩, fun all_lit =>
    unlit fun px py covered => ?_⟩
  · by_cases covered : s.Covers x y n px py
    · rw [(toggled_again px py).1 ((covers px py).mpr covered), (toggled px py).1 covered, Bool.not_not]
    · rw [(toggled_again px py).2 (mt (covers px py).mp covered), (toggled px py).2 covered]
  · exact (covers px py).mpr covered
  · rw [(toggled px py).1 covered, off, Bool.not_false]
  · have covered_first := (covers px py).mp covered
    rw [(toggled px py).1 covered_first, all_lit px py covered_first, Bool.not_true]

end Sys2Proof.Machine
end

section
/-! SUPPORT. The order of the host's moves (20_memory R72, 70_reset R426): when a step is in progress, and what a
session answers to a load, a step and a sampling by its phase. -/

namespace Sys2Proof.Machine

variable {σ : Session}

theorem Session.suspended_of_waiting (ready : σ.phase ≠ .unready) (suspended : σ.core.waiting = true) :
    σ.suspended = true := by
  simp [Session.suspended, ready, suspended]

theorem Session.not_suspended_of_unready (unready : σ.phase = .unready) : σ.suspended = false := by
  simp [Session.suspended, unready]

theorem Session.not_suspended_of_awake (awake : σ.core.waiting = false) : σ.suspended = false := by
  simp [Session.suspended, awake]

theorem Session.run_loadProgram (img : List Byte) (h : σ.suspended = false) :
    σ.run (.loadProgram img) = σ.load img :=
  if_neg (ne_true_of_eq_false h)

theorem Session.run_initialise_of_suspended (h : σ.suspended = true) :
    σ.run .initialise = .refused .commandWhileWaiting :=
  if_pos h

theorem Session.run_loadProgram_of_suspended (img : List Byte) (h : σ.suspended = true) :
    σ.run (.loadProgram img) = .refused .commandWhileWaiting :=
  if_pos h

theorem Session.run_step_of_unready (h : σ.phase = .unready) : σ.run .step = .refused .beforeFirstReset := if_pos h

theorem Session.run_sample_of_unready (h : σ.phase = .unready) : σ.run .sample = .refused .beforeFirstReset := if_pos h

theorem Session.run_step_of_loadFailed (h : σ.phase = .loadFailed) :
    σ.run .step = .refused .stepAfterFailedLoad := by
  simp [Session.run, h]

/-- The step command in a phase that admits it: refused while a step is in progress, else the core's move. -/
theorem Session.run_step (ready : σ.phase ≠ .unready) (not_failed : σ.phase ≠ .loadFailed) :
    σ.run .step = if σ.suspended then .refused .commandWhileWaiting else σ.coreMove :=
  (if_neg ready).trans (if_neg not_failed)

/-- A sampling after the first `initialise`: the core's move while a step is in progress, else refused. -/
theorem Session.run_sample (ready : σ.phase ≠ .unready) :
    σ.run .sample = if σ.suspended then σ.coreMove else .refused .sampleWhileNotWaiting :=
  if_neg ready

theorem Session.load_of_unready (img : List Byte) (h : σ.phase = .unready) :
    σ.load img = .refused .beforeFirstReset := by
  rw [Session.load, h]

theorem Session.load_of_later (img : List Byte) (h : σ.phase = .loaded ∨ σ.phase = .loadFailed ∨ σ.phase = .stepped) :
    σ.load img = .refused .loadOutOfOrder := by
  rcases h with h | h | h <;> rw [Session.load, h]

/-- In the fresh phase any load is answered, with the core's own result. -/
theorem Session.load_of_fresh (img : List Byte) (h : σ.phase = .fresh) :
    ∃ υ, σ.load img = .next (υ, .load (σ.core.loadProgram img).1) := by
  simp only [Session.load, h]
  split
  · next hload => exact ⟨_, by rw [hload]⟩
  · next hload => exact ⟨_, by rw [hload]⟩

theorem Session.coreMove_of_step {t : State} (h : step σ.core = .next t) :
    σ.coreMove = .next ({ core := t, phase := .stepped }, .step (stepResult σ.core t)) := by
  rw [Session.coreMove, h]

end Sys2Proof.Machine
end

section
/-! Reset and the host's moves (10_state R39, 20_memory R72, 60_exceptions R381, 70_reset R420 to R426). -/

namespace Sys2Proof.Machine

/-- Settles O2: the reset state is `initialise` of itself. -/
theorem resetIsInitialisedState : Obligations.ResetIsInitialisedState :=
  ⟨rfl, rfl, State.reset.ready_initialise, State.reset.fetchable_initialise⟩

/-- Settles O57: nothing is listed in memory, no call is on the stack, and the core neither halted nor waits. -/
theorem resetMeetsInvariants : Obligations.ResetMeetsInvariants :=
  ⟨Memory.wf_nil, ⟨by decide, fun j hj => absurd hj (Nat.not_lt_zero j), nofun⟩,
    ⟨fun _ => ⟨rfl, rfl, rfl⟩, nofun⟩, nofun⟩

/-- Settles O5: the phase or the suspended step decides each refusal. -/
theorem hostOrderRefused : Obligations.HostOrderRefused := by
  refine fun σ img => ⟨fun unready => ?_, Session.run_step_of_loadFailed, fun later awake => ?_,
    fun ready suspended => ?_⟩
  · have tried := Session.run_loadProgram img (Session.not_suspended_of_unready unready)
    exact ⟨Session.run_step_of_unready unready, tried.trans (Session.load_of_unready img unready),
      Session.run_sample_of_unready unready⟩
  · have tried := Session.run_loadProgram img (Session.not_suspended_of_awake awake)
    exact tried.trans (Session.load_of_later img later)
  · have not_unready : σ.phase ≠ .unready := by rcases ready with h | h | h <;> simp [h]
    have not_failed : σ.phase ≠ .loadFailed := by rcases ready with h | h | h <;> simp [h]
    have in_progress := Session.suspended_of_waiting not_unready suspended
    exact ⟨Session.run_initialise_of_suspended in_progress,
      (Session.run_step not_unready not_failed).trans (if_pos in_progress),
      Session.run_loadProgram_of_suspended img in_progress⟩

/-- Settles O6: a stepped session refuses a load, and the core's move from a halted core is the core itself. -/
theorem onlyInitialiseClearsTheLatch : Obligations.OnlyInitialiseClearsTheLatch := by
  intro σ σ' m r stepped halted not_initialise h
  have moved := Session.coreMove_of_step (step_of_halted halted)
  have not_unready : σ.phase ≠ .unready := by simp [stepped]
  have not_failed : σ.phase ≠ .loadFailed := by simp [stepped]
  cases m with
  | initialise => exact absurd rfl not_initialise
  | loadProgram img =>
    cases suspended : σ.suspended with
    | true => cases (Session.run_loadProgram_of_suspended img suspended).symm.trans h
    | false =>
      have refused := Session.load_of_later img (.inr (.inr stepped))
      cases ((Session.run_loadProgram img suspended).trans refused).symm.trans h
  | step =>
    rw [Session.run_step not_unready not_failed, moved] at h
    split at h <;> cases h
    rfl
  | sample =>
    rw [Session.run_sample not_unready, moved] at h
    split at h <;> cases h
    rfl
  | driveKeypad | driveRnd =>
    cases h
    rfl

/-- Settles O58: after `initialise` the phase is fresh and no step is in progress, so both moves are answered. -/
theorem repeatedInitialiseReopensLaunch : Obligations.RepeatedInitialiseReopensLaunch := by
  intro σ not_suspended
  refine ⟨_, Session.run_initialise not_suspended, rfl, fun img => ?_, ?_⟩
  · obtain ⟨υ, hload⟩ := Session.load_of_fresh (σ := { core := σ.core.initialise, phase := .fresh }) img rfl
    exact ⟨υ, (Session.run_loadProgram img rfl).trans hload⟩
  · exact ⟨_, _, Session.coreMove_of_step (step_initialise σ.core)⟩

end Sys2Proof.Machine
end

section
/-! The shifts' ignored field and the random byte (30_encoding R101, 42_register_alu Cxkk). -/

namespace Sys2Proof.Machine

/-- Settles O37: the meanings of both shifts take y and do not read it. -/
theorem shiftsIgnoreY : Obligations.ShiftsIgnoreY :=
  fun _ _ _ _ => ⟨rfl, rfl⟩

theorem State.drawnByte_of_cons {s : State} {b : Byte} {bs : List Byte} (h : s.rnd = b :: bs) : s.drawnByte = b := by
  rw [State.drawnByte, h]

theorem State.drawnByte_of_nil {s : State} (h : s.rnd = []) : s.drawnByte = Config.freeRnd s.draws := by
  rw [State.drawnByte, h]

/-- Settles O38: `State.drawnByte` is the byte, `State.afterDraw` the input after it, and V[x] alone is written
besides. -/
theorem randomByteMasked : Obligations.RandomByteMasked := by
  refine fun s x kk => ⟨Laws.encode_and_mask (Laws.OwnRow.rnd x kk), _, s.drawnByte, rfl,
    s.afterDraw.reg_setReg_same x _, fun b bs h => ⟨State.drawnByte_of_cons h, congrArg List.tail h⟩,
    fun h => ⟨State.drawnByte_of_nil h, congrArg List.tail h⟩, rfl, rfl,
    s.keepsRegs_setReg (List.mem_singleton.mpr rfl) _, fun _ => rfl, rfl⟩

end Sys2Proof.Machine
end
